-- ==== Sys2Proof/Word.lean ====
section
/-!
DEFINITION. The word types of the codec block (spec/00_scope.md R7, R10; spec/20_memory.md R70).
-/

namespace Sys2Proof

/-- One register of the image, and one byte of a frame: `REGW` = 8 bits (R7). -/
abbrev Byte := BitVec 8

/-- An operand `wdata`, a result `rdata` or a mantissa: `DATAW` = 32 bits (R7). -/
abbrev Word := BitVec 32

/-- A command word: `CMDW` = 16 bits (R7, R101). -/
abbrev Command := BitVec 16

/-- A register address: 4 bits, `0x0` to `0xF` (R20, R70). -/
abbrev RegAddr := BitVec 4

end Sys2Proof
end

