-- ==== Sys2Proof/Syntax.lean ====
section
/-!
DEFINITION. The thirteen commands (spec/30_encoding.md R103) and the named selectors they take
(R106 bitfields, R107 scalars). Operands that come from a port (`wdata`, `bin`, `blen`) are no part of a
command word (R101), so they are not part of `Instr`.
-/

namespace Sys2Proof

/-- The 23 named bitfields, in selector order 0 to 22 (R106; spec/10_state.md R26, R27, R30, R31). -/
inductive BitField where
  /-- conversion-mode flag of CR0 -/
  | cmode
  /-- one-shot flag of CR0 -/
  | oneshot
  /-- open-circuit-fault-detection selector of CR0 -/
  | ocfault
  /-- cold-junction-disable flag of CR0 -/
  | cjdis
  /-- fault-latch-mode flag of CR0 -/
  | fltmode
  /-- fault-clear flag of CR0 -/
  | fltclr
  /-- mains-notch-filter flag of CR0 -/
  | notch
  /-- thermocouple-type selector of CR1 -/
  | tctype
  /-- sample-averaging selector of CR1 -/
  | avgsel
  /-- MASK flag of CJHIGH -/
  | mCjhigh
  /-- MASK flag of CJLOW -/
  | mCjlow
  /-- MASK flag of TCHIGH -/
  | mTchigh
  /-- MASK flag of TCLOW -/
  | mTclow
  /-- MASK flag of OVUV -/
  | mOvuv
  /-- MASK flag of OPEN -/
  | mOpen
  /-- cold-junction range flag of SR -/
  | cjrange
  /-- thermocouple range flag of SR -/
  | tcrange
  /-- cold-junction high flag of SR -/
  | cjhigh
  /-- cold-junction low flag of SR -/
  | cjlow
  /-- thermocouple high flag of SR -/
  | tchigh
  /-- thermocouple low flag of SR -/
  | tclow
  /-- input over- or under-voltage flag of SR -/
  | ovuv
  /-- open-circuit flag of SR, the spec's OPEN -/
  | openFlag
  deriving DecidableEq, Repr

/-- The seven scalar fields, in selector order 0 to 6 (R107; spec/10_state.md R33 to R39). -/
inductive Scalar where
  /-- cold-junction high fault threshold -/
  | cjhf
  /-- cold-junction low fault threshold -/
  | cjlf
  /-- linearized-temperature high fault threshold -/
  | lthft
  /-- linearized-temperature low fault threshold -/
  | ltlft
  /-- cold-junction temperature offset -/
  | cjto
  /-- cold-junction temperature -/
  | cjt
  /-- linearized thermocouple temperature, raw -/
  | ltc
  deriving DecidableEq, Repr

/-- The thirteen commands, one constructor for each row of spec/opcode_table.json, in its order (R103). -/
inductive Instr where
  /-- reset the image to the factory default (R140) -/
  | dflt
  /-- read a raw byte (R141) -/
  | rdb (a : RegAddr)
  /-- write a raw byte (R142) -/
  | wrb (a : RegAddr)
  /-- read a bitfield (R143) -/
  | rdf (f : BitField)
  /-- write a bitfield (R144) -/
  | wrf (f : BitField)
  /-- read a scalar as a signed integer (R145) -/
  | rds (x : Scalar)
  /-- write a scalar from a signed integer (R146) -/
  | wrs (x : Scalar)
  /-- decode the thermocouple-type selector (R147) -/
  | dtyp
  /-- decode the averaging selector (R148) -/
  | davg
  /-- unpack a read response into the image (R181) -/
  | load
  /-- pack the writable registers into a write frame (R182) -/
  | pack
  /-- produce the read request frame (R184) -/
  | rdrq
  /-- compute all derived values (R200) -/
  | calcDv
  deriving DecidableEq, Repr

end Sys2Proof
end

