-- ==== Sys2Proof/WellFormed.lean ====
section
/-!
DEFINITION. What the raw inputs of a transaction must look like to name a command.
`Instr` carries typed operands (a 4-bit address, a named bitfield, a named scalar), so every `Instr` is well
formed by construction; what can be ill formed is the 16-bit command word (spec/30_encoding.md R103, R111, R112)
and the length of an input buffer (R100: `blen` counts 0 to 255).
-/

namespace Sys2Proof

/-- One row of the match/mask table of R103: a word `w` selects the row when `w & mask = match` and the
selector, the low byte of the word, is at most `maxSel` (the "extra condition" of the F and S rows). -/
structure CommandRow where
  mnemonic : String
  pattern  : Command
  mask     : Command
  maxSel   : Nat
  deriving DecidableEq, Repr

/-- The word selects the row (R103). -/
def CommandRow.selects (r : CommandRow) (w : Command) : Bool :=
  w &&& r.mask == r.pattern && decide ((w.setWidth 8).toNat ≤ r.maxSel)

/-- The match/mask table of R103, in its order. -/
def commandTable : List CommandRow := [
  ⟨"DFLT", 0x0100, 0xFFFF, 0⟩,
  ⟨"RDB",  0x0200, 0xFFF0, 15⟩,
  ⟨"WRB",  0x0300, 0xFFF0, 15⟩,
  ⟨"RDF",  0x0400, 0xFFE0, 22⟩,
  ⟨"WRF",  0x0500, 0xFFE0, 22⟩,
  ⟨"RDS",  0x0600, 0xFFF8, 6⟩,
  ⟨"WRS",  0x0700, 0xFFF8, 6⟩,
  ⟨"DTYP", 0x0800, 0xFFFF, 0⟩,
  ⟨"DAVG", 0x0900, 0xFFFF, 0⟩,
  ⟨"LOAD", 0x1000, 0xFFFF, 0⟩,
  ⟨"PACK", 0x1100, 0xFFFF, 0⟩,
  ⟨"RDRQ", 0x1200, 0xFFFF, 0⟩,
  ⟨"CALC", 0x2000, 0xFFFF, 0⟩]

/-- The command word names a command: some row of the table selects it (R103, R111, R112). -/
def commandWellFormed (w : Command) : Bool :=
  commandTable.any (·.selects w)

/-- The input buffer fits the port: `blen` is an 8-bit count, 0 to 255 (R70, R100). -/
def bufferWellFormed (bin : List Byte) : Bool :=
  decide (bin.length ≤ 255)

end Sys2Proof
end

