-- ==== Sys2Proof/Decode.lean ====
section
/-!
DEFINITION. Decoding a command word, and the encoder (spec/30_encoding.md R101 to R107, R111, R112).
Decoding reads the word alone: never the image, never an operand (R101). It is total, and an illegal word is
refused under a name of its own.
-/

namespace Sys2Proof

/-- Why a word names no command (R111, R112). All five end in the one status `ST_ERR_CMD` (R233), so which
name a word gets is visible nowhere in the machine (log entry 14, DESIGN CHOICE, safe). -/
inductive IllegalWord where
  /-- `op` is none of the thirteen (R111). -/
  | unknownOp
  /-- format N with `sel` other than 0 (R112). -/
  | selNotZero
  /-- format A with `sel` above 15 (R112). -/
  | selNotRegister
  /-- format F with `sel` above 22 (R112). -/
  | selNotField
  /-- format S with `sel` above 6 (R112). -/
  | selNotScalar
  deriving DecidableEq, Repr

/-- `op = cmd[15:8]` (R101). -/
def Command.op (w : Command) : BitVec 8 := w.extractLsb' 8 8

/-- `sel = cmd[7:0]` (R101). -/
def Command.sel (w : Command) : BitVec 8 := w.extractLsb' 0 8

/-- The bitfield a selector names (R106); 23 to 255 name none. -/
def BitField.ofSel (sel : BitVec 8) : Option BitField :=
  match sel.toNat with
  | 0 => some .cmode | 1 => some .oneshot | 2 => some .ocfault | 3 => some .cjdis
  | 4 => some .fltmode | 5 => some .fltclr | 6 => some .notch
  | 7 => some .tctype | 8 => some .avgsel
  | 9 => some .mCjhigh | 10 => some .mCjlow | 11 => some .mTchigh | 12 => some .mTclow
  | 13 => some .mOvuv | 14 => some .mOpen
  | 15 => some .cjrange | 16 => some .tcrange | 17 => some .cjhigh | 18 => some .cjlow
  | 19 => some .tchigh | 20 => some .tclow | 21 => some .ovuv | 22 => some .openFlag
  | _ => none

/-- The scalar a selector names (R107); 7 to 255 name none. -/
def Scalar.ofSel (sel : BitVec 8) : Option Scalar :=
  match sel.toNat with
  | 0 => some .cjhf | 1 => some .cjlf | 2 => some .lthft | 3 => some .ltlft
  | 4 => some .cjto | 5 => some .cjt | 6 => some .ltc
  | _ => none

/-- Format N: `sel` must be zero (R102). -/
def decodeN (i : Instr) (sel : BitVec 8) : Except IllegalWord Instr :=
  if sel = 0 then .ok i else .error .selNotZero

/-- Format A: `sel` is a register address 0 to 15 (R102). -/
def decodeA (mk : RegAddr → Instr) (sel : BitVec 8) : Except IllegalWord Instr :=
  if sel.toNat ≤ 15 then .ok (mk (sel.setWidth 4)) else .error .selNotRegister

/-- Format F: `sel` is a bitfield selector 0 to 22 (R102). -/
def decodeF (mk : BitField → Instr) (sel : BitVec 8) : Except IllegalWord Instr :=
  match BitField.ofSel sel with
  | some f => .ok (mk f)
  | none => .error .selNotField

/-- Format S: `sel` is a scalar selector 0 to 6 (R102). -/
def decodeS (mk : Scalar → Instr) (sel : BitVec 8) : Except IllegalWord Instr :=
  match Scalar.ofSel sel with
  | some x => .ok (mk x)
  | none => .error .selNotScalar

/-- Decode a command word (R101 to R103): `op` selects the command, its format says what `sel` means. -/
def decode (w : Command) : Except IllegalWord Instr :=
  match w.op.toNat with
  | 0x01 => decodeN .dflt w.sel
  | 0x02 => decodeA .rdb w.sel
  | 0x03 => decodeA .wrb w.sel
  | 0x04 => decodeF .rdf w.sel
  | 0x05 => decodeF .wrf w.sel
  | 0x06 => decodeS .rds w.sel
  | 0x07 => decodeS .wrs w.sel
  | 0x08 => decodeN .dtyp w.sel
  | 0x09 => decodeN .davg w.sel
  | 0x10 => decodeN .load w.sel
  | 0x11 => decodeN .pack w.sel
  | 0x12 => decodeN .rdrq w.sel
  | 0x20 => decodeN .calcDv w.sel
  | _ => .error .unknownOp

/-- The instruction the decoder reads from bits numbered as spec/opcode_table.json numbers them: one 16-bit
word, bit 0 its least significant bit (R101). Bits at and above `nbits` are zero. -/
def decodeTableWord (nbits w : Nat) : Option Instr :=
  (decode (BitVec.ofNat 16 (w % 2 ^ nbits))).toOption

/-- The selector number of a bitfield (R106). -/
def BitField.sel : BitField → BitVec 8
  | .cmode => 0 | .oneshot => 1 | .ocfault => 2 | .cjdis => 3
  | .fltmode => 4 | .fltclr => 5 | .notch => 6
  | .tctype => 7 | .avgsel => 8
  | .mCjhigh => 9 | .mCjlow => 10 | .mTchigh => 11 | .mTclow => 12
  | .mOvuv => 13 | .mOpen => 14
  | .cjrange => 15 | .tcrange => 16 | .cjhigh => 17 | .cjlow => 18
  | .tchigh => 19 | .tclow => 20 | .ovuv => 21 | .openFlag => 22

/-- The selector number of a scalar (R107). -/
def Scalar.sel : Scalar → BitVec 8
  | .cjhf => 0 | .cjlf => 1 | .lthft => 2 | .ltlft => 3 | .cjto => 4 | .cjt => 5 | .ltc => 6

/-- The opcode of a command (R103). -/
def Instr.op : Instr → BitVec 8
  | .dflt => 0x01 | .rdb _ => 0x02 | .wrb _ => 0x03 | .rdf _ => 0x04 | .wrf _ => 0x05
  | .rds _ => 0x06 | .wrs _ => 0x07 | .dtyp => 0x08 | .davg => 0x09
  | .load => 0x10 | .pack => 0x11 | .rdrq => 0x12 | .calcDv => 0x20

/-- The selector of a command: zero for format N (R102). -/
def Instr.sel : Instr → BitVec 8
  | .rdb a => a.setWidth 8
  | .wrb a => a.setWidth 8
  | .rdf f => f.sel
  | .wrf f => f.sel
  | .rds x => x.sel
  | .wrs x => x.sel
  | .dflt => 0 | .dtyp => 0 | .davg => 0 | .load => 0 | .pack => 0 | .rdrq => 0 | .calcDv => 0

/-- The command word of a command, `(op << 8) | sel` (R101, R122). -/
def encode (i : Instr) : Command := i.op ++ i.sel

end Sys2Proof
end

