-- ==== Sys2Proof/Machine/Params.lean ====
section
/-!
DEFINITION. The fixed parameters of the block (spec/00_scope.md R7). None of them is configurable.
-/

namespace Sys2Proof.Machine

/-- Registers in the image (R7). -/
abbrev NREG : Nat := 16

/-- Writable registers, addresses `0x00` to `0x0B`, carried by a write frame (R7). -/
abbrev NWR : Nat := 12

/-- Read-only trailing registers, addresses `0x0C` to `0x0F`, carried by no write frame (R7). -/
abbrev NRO : Nat := NREG - NWR

/-- Bytes in a read frame, request and response (R7). -/
abbrev RDLEN : Nat := 17

/-- Bytes in a write frame (R7). -/
abbrev WRLEN : Nat := 13

/-- Unused low bits of the 24-bit LTC field, removed by an arithmetic right shift (R7). -/
abbrev LTC_SHIFT : Nat := 5

/-- The address byte of a frame, `{W, A[6:0]}`: bit 7 the write flag, below it the starting register address
(spec/20_memory.md R91; the 7-bit width of `A` is the spec's inference: log entry 10, DEDUCED, safe). -/
def addressByte (writeFlag : Bool) (start : BitVec 7) : Byte := BitVec.ofBool writeFlag ++ start

/-- `WRADDR`, the address byte of a write frame: register address 0 with the write flag set (R7, R91). -/
def WRADDR : Byte := addressByte true 0

/-- `RDADDR`, the address byte of a read request: register address 0 with the write flag clear (R7, R91). -/
def RDADDR : Byte := addressByte false 0

end Sys2Proof.Machine
end

