-- ==== Sys2Proof/Machine/Image.lean ====
section
/-!
DEFINITION. The register image: its type, its factory default, and the primitives that read and write it
(spec/10_state.md R20 to R24, R60; spec/00_scope.md R11). It is the one memory of the block, and every one of its
sixteen addresses holds a register, so it is a vector of sixteen bytes (R71; log entry 9, DEDUCED, safe).
-/

namespace Sys2Proof.Machine

/-- The register image `R[0..15]`, index = register address (R20, R21). -/
abbrev Image := Vector Byte NREG

/-- `DEF[0..15]`, the factory default pattern in address order (R60). -/
def factoryDefault : Image :=
  #v[0x00, 0x03, 0xFF, 0x7F, 0xC0, 0x7F, 0xFF, 0x80, 0x00, 0x00, 0x00, 0x00, 0x00, 0x00, 0x00, 0x00]

/-- `R[a]` (R11). No register is hard-wired, banked or refused (R22, R24). -/
def Image.reg (m : Image) (a : RegAddr) : Byte := m[a.toNat]'a.isLt

/-- `R[a] <- v` (R11). Every register takes every byte, the chip's read-only ones included (R24). -/
def Image.setReg (m : Image) (a : RegAddr) (v : Byte) : Image := m.set a.toNat v a.isLt

/-- `MemRead(a, n)`: `{R[a], .., R[a+n-1]}`, the byte at the lowest address most significant (R11, R23, R73).
R11 defines it for `a + n <= 16` only, and every use in the model is in that range. -/
def Image.memRead (m : Image) (a : RegAddr) : (n : Nat) → BitVec (8 * n)
  | 0 => 0#0
  | n + 1 => (m.reg a ++ m.memRead (a + 1) n).cast (by omega)

/-- `MemWrite(a, n, v)`: `R[a+i] <- v[8(n-i)-1 : 8(n-1-i)]` for `i = 0..n-1` (R11, R23, R73). -/
def Image.memWrite (m : Image) (a : RegAddr) : (n : Nat) → BitVec (8 * n) → Image
  | 0, _ => m
  | n + 1, v => (m.setReg a (v.extractLsb' (8 * n) 8)).memWrite (a + 1) n (v.setWidth (8 * n))

end Sys2Proof.Machine
end

