-- ==== Sys2Proof/Machine/Flags.lean ====
section
/-!
DEFINITION. The status of a command and the two operand checks that decide it. The block stores no flag and no
condition code (spec/10_state.md R57); the status is an output of the step (spec/60_exceptions.md R230).
-/

namespace Sys2Proof.Machine

/-- The four ways a command ends (R230). -/
inductive Status where
  /-- the command was carried out -/
  | ok
  /-- LOAD was given a buffer whose length is not 17 (R232) -/
  | errLen
  /-- WRB, WRF or WRS was given a value that does not fit its target (R234) -/
  | errRange
  /-- the word names no command (R233) -/
  | errCmd
  deriving DecidableEq, Repr

/-- The 2-bit code on the port `st` (R230). -/
def Status.code : Status → BitVec 2
  | .ok => 0
  | .errLen => 1
  | .errRange => 2
  | .errCmd => 3

/-- The operand check of WRB and WRF: `unsigned(wdata) < 2^w`, all 32 bits compared (R108). -/
def fitsUnsigned (w : Nat) (v : Word) : Bool := decide (v.toNat < 2 ^ w)

/-- The operand check of WRS: `-2^(w-1) <= signed_32(wdata) <= 2^(w-1) - 1` (R109). -/
def fitsSigned (w : Nat) (v : Word) : Bool :=
  decide (-(2 ^ (w - 1) : Int) ≤ v.toInt ∧ v.toInt ≤ 2 ^ (w - 1) - 1)

end Sys2Proof.Machine
end

