-- ==== Sys2Proof/Machine/Ports.lean ====
section
/-!
DEFINITION. One transaction on the block's ports (spec/30_encoding.md R100): what the host presents and what the
block answers.
-/

namespace Sys2Proof.Machine

/-- What the host presents in one transaction (R100). Any values in any order are allowed (R270 L1). -/
structure Request where
  /-- reset (R260) -/
  rst   : Bool
  /-- the command word (R101) -/
  cmd   : Command
  /-- the data operand of WRB, WRF and WRS -/
  wdata : Word
  /-- the input buffer of LOAD: exactly the bytes `bin[0..blen-1]` -/
  bin   : List Byte
  deriving DecidableEq, Repr

/-- `blen`, the number of valid bytes in `bin` (R100). Decision D19 allows a list of any length, lengths above
255 being rejected like any other not equal to 17 (log entry 4, DESIGN CHOICE, safe). -/
def Request.blen (r : Request) : Nat := r.bin.length

/-- The seven mantissas CALC gives (R100, R119). An output of one step, never kept as a source (R50). -/
structure DerivedValues where
  cjhf  : Word
  cjlf  : Word
  lthft : Word
  ltlft : Word
  cjto  : Word
  cjt   : Word
  ltct  : Word
  deriving DecidableEq, Repr

/-- All seven outputs zero: what every command but CALC gives (R100). -/
def DerivedValues.zero : DerivedValues := ⟨0, 0, 0, 0, 0, 0, 0⟩

/-- What the block presents at the end of one transaction (R100). -/
structure Outputs where
  /-- the status (R230) -/
  st      : BitVec 2
  /-- the result word (R110) -/
  rdata   : Word
  /-- the output buffer: exactly the bytes `bout[0..bout_len-1]` (log entry 11) -/
  bout    : List Byte
  /-- the number of valid bytes in `bout` -/
  boutLen : BitVec 8
  /-- the derived values of CALC -/
  dv      : DerivedValues
  deriving DecidableEq, Repr

/-- `ST_OK` and every result zero: what a command without a result gives (R110, R149, R180), and what the
outputs are while `rst` is asserted (R260). -/
def Outputs.plain : Outputs := ⟨Status.ok.code, 0, [], 0, .zero⟩

/-- A successful command with a result word (R110). -/
def Outputs.ofWord (v : Word) : Outputs := { Outputs.plain with rdata := v }

/-- A successful command with an output buffer: `bout`, and `bout_len` its length (R100). -/
def Outputs.ofFrame (bytes : List Byte) : Outputs :=
  { Outputs.plain with bout := bytes, boutLen := BitVec.ofNat 8 bytes.length }

/-- A successful CALC (R200). -/
def Outputs.ofDerived (d : DerivedValues) : Outputs := { Outputs.plain with dv := d }

/-- The outputs of a rejected command: the error code, and every result zero (R231). -/
def Outputs.rejected (e : Status) : Outputs := { Outputs.plain with st := e.code }

end Sys2Proof.Machine
end

