-- ==== Sys2Proof/Machine/State.lean ====
section
/-!
DEFINITION. The state of the machine, the reasons a step can stop, and the state after reset.

The block's own state is the image alone (spec/10_state.md R20, R56 to R59). A step of the host's interface has
no argument but the state and no result but the next one, so the ports of spec/30_encoding.md R100 stand in the
state beside the image: `port` and `pending` for what the host presents, `out` for what the block answered last
(log entry 1, DESIGN CHOICE, safe). No definition of the model reads `out`.
-/

namespace Sys2Proof.Machine

structure State where
  /-- the register image, the block's one piece of state (R20) -/
  image   : Image
  /-- the transaction being carried out, or the last one: the block's input ports (R100) -/
  port    : Request
  /-- the transactions the host presents after it, in the order it presents them (R56, R81) -/
  pending : List Request
  /-- the outputs of the last transaction (R100) -/
  out     : Outputs
  deriving DecidableEq, Repr

/-- The reasons the machine stops with a fault: NONE. The spec has no stop: every command word, operand and
buffer gives a defined result (spec/00_scope.md R12), a contract violation is a status of a next state
(spec/60_exceptions.md R231), and no command can hang (spec/70_reset_and_hazards.md R271). -/
inductive Fault where
  deriving DecidableEq, Repr

/-- The reasons the model declines an instruction. -/
inductive Refusal where
  /-- Raised by `exec`'s arm of an instruction that has no meaning yet: by none, since all thirteen have one.
  Safe: the model would stop where the hardware goes on. -/
  | notModelled (mnemonic : String)
  deriving DecidableEq, Repr

/-- The machine right after reset: the image holds the factory default pattern (R61, R62), the outputs are those
of reset (R260), nothing is presented. The values on the input ports are the host's to drive and the spec gives
them none: log entry 5, DESIGN CHOICE, unsafe. -/
def State.reset : State where
  image   := factoryDefault
  port    := { rst := false, cmd := 0, wdata := 0, bin := [] }
  pending := []
  out     := .plain

end Sys2Proof.Machine
end

