-- ==== Sys2Proof/Machine/Ops.lean ====
section
/-!
DEFINITION. The operations every command is made of: ending with an answer, ending with a rejection, taking the
next transaction, and reset. Rejection is the block's only "exception", written once from spec/60_exceptions.md
R231; there is no return from it, since nothing is saved and control goes nowhere (R238).
-/

namespace Sys2Proof.Machine

/-- The outputs replaced. -/
def State.setOut (o : Outputs) (s : State) : State := { s with out := o }

/-- The image replaced. -/
def State.setImage (m : Image) (s : State) : State := { s with image := m }

/-- The transaction on the ports replaced, and the transactions after it. -/
def State.setPorts (r : Request) (rest : List Request) (s : State) : State :=
  { s with port := r, pending := rest }

/-- The command leaves the image as it is and ends with the outputs `o`. -/
def State.answer (o : Outputs) (s : State) : Host.Outcome State Fault Refusal := .next (s.setOut o)

/-- The command replaces the image and ends with `ST_OK` and no result (R149, R180). Its writes all take effect
together (R80). -/
def State.store (m : Image) (s : State) : Host.Outcome State Fault Refusal :=
  .next ((s.setImage m).setOut .plain)

/-- `raise <Error>` (R11, R231): no register is written, `st` is the error code, every result is zero, and the
block is ready for the next command. -/
def State.raise (e : Status) (s : State) : Host.Outcome State Fault Refusal := .next (s.setOut (.rejected e))

/-- What the block does with a word that names no command, whatever is wrong with it (R233). -/
def State.rejectWord (_ : IllegalWord) (s : State) : Host.Outcome State Fault Refusal := s.raise .errCmd

/-- Reset (R61, R260): the image takes the default pattern, the outputs are zero, and the command presented with
`rst` is not executed. One transaction with `rst` asserted is one reset (log entry 6, DESIGN CHOICE, safe). -/
def State.resetBlock (s : State) : Host.Outcome State Fault Refusal := s.store factoryDefault

/-- Where the host presents nothing the block does not step (R15): nothing changes (log entry 2, DESIGN CHOICE,
safe). -/
def State.idle (s : State) : Host.Outcome State Fault Refusal := .next s

/-- The block takes the next transaction the host presents onto its ports, one at a time and in order (R81);
`none` where the host presents nothing. -/
def State.accept (s : State) : Option State :=
  match s.pending with
  | [] => none
  | r :: rest => some (s.setPorts r rest)

/-- The command word on the port, decoded (R101). -/
def State.command (s : State) : Except IllegalWord Instr := decode s.port.cmd

/-- The host presents the command word `w` next, ahead of whatever it presents later, with the operands its ports
carry now and `rst` not asserted (R100). -/
def State.present (w : Command) (s : State) : State :=
  { s with pending := { s.port with rst := false, cmd := w } :: s.pending }

end Sys2Proof.Machine
end

