-- ==== Sys2Proof/Machine/Marshaller.lean ====
section
/-!
DEFINITION. The serial buffer marshaller commands (spec/41_marshaller_ops.md R180 to R184). The frames are handed
to and taken from the host; none of the commands performs I/O (spec/20_memory.md R86).
-/

namespace Sys2Proof.Machine

/-- decode_buffer (R181, spec/30_encoding.md R116): a 17-byte read response, position 0 discarded and position
`a + 1` belonging to register `a`; any other length is no response. -/
def decodeBuffer (bin : List Byte) : Option Image :=
  if h : bin.length = RDLEN then some ⟨bin.tail.toArray, by simp [h]⟩ else none

/-- encode_buffer (R182, spec/30_encoding.md R117): the address byte, then registers `0x00` to `0x0B`. -/
def encodeBuffer (m : Image) : List Byte := WRADDR :: m.toList.take NWR

/-- The read request frame (R184, spec/30_encoding.md R115): the address byte, then sixteen filler bytes. -/
def readRequest : List Byte := RDADDR :: List.replicate (RDLEN - 1) 0x00

/-- LOAD (R181): `ST_ERR_LEN` unless the buffer has exactly 17 bytes. -/
def execLoad (s : State) : Host.Outcome State Fault Refusal :=
  match decodeBuffer s.port.bin with
  | some m => s.store m
  | none => s.raise .errLen

/-- PACK (R182). -/
def execPack (s : State) : Host.Outcome State Fault Refusal :=
  s.answer (.ofFrame (encodeBuffer s.image))

/-- RDRQ (R184). -/
def execRdrq (s : State) : Host.Outcome State Fault Refusal :=
  s.answer (.ofFrame readRequest)

end Sys2Proof.Machine
end

