-- ==== Sys2Proof/Machine/Bits.lean ====
section
/-!
DEFINITION. The bit-level primitives of the pseudocode (spec/00_scope.md R11) and the bitfield merge of
spec/40_register_image_ops.md R144.
-/

namespace Sys2Proof.Machine

/-- `zext_32(v)` (R11). -/
def zext32 {w : Nat} (v : BitVec w) : Word := v.setWidth 32

/-- `sext_32(v)`: bit `w-1` copied into the bits above (R11). -/
def sext32 {w : Nat} (v : BitVec w) : Word := v.signExtend 32

/-- `asr(x, k)` on a 32-bit pattern: bits move down by `k`, the top `k` bits copy bit 31 (R11, R209). -/
def asr (x : Word) (k : Nat) : Word := x.sshiftRight k

/-- `v[lsb+w-1 : lsb]` (R10). -/
def slice {n : Nat} (v : BitVec n) (lsb w : Nat) : BitVec w := v.extractLsb' lsb w

/-- The 8-bit mask `(2^w - 1) << lsb` (R144). -/
def fieldMask (lsb w : Nat) : Byte := BitVec.ofNat 8 (2 ^ w - 1) <<< lsb

/-- `(old & ~mask) | ((v << lsb) & mask)` (R144). -/
def mergeField (old : Byte) (lsb w : Nat) (v : Byte) : Byte :=
  (old &&& ~~~ fieldMask lsb w) ||| ((v <<< lsb) &&& fieldMask lsb w)

end Sys2Proof.Machine
end

