-- ==== Sys2Proof/Machine/Operands.lean ====
section
/-!
DEFINITION. Where each named bitfield and scalar lies in the image (spec/30_encoding.md R106, R107) and how it is
read and written (spec/10_state.md R22, R23). Addressing is a constant of the command word (R153).
-/

namespace Sys2Proof.Machine

/-- Where a bitfield lies: `R[reg][lsb+width-1 : lsb]` (R106). -/
structure FieldLayout where
  reg   : RegAddr
  lsb   : Nat
  width : Nat
  deriving DecidableEq, Repr

/-- The bitfield table (R106; spec/10_state.md R26, R27, R30, R31). -/
def fieldLayout : BitField → FieldLayout
  | .cmode    => ⟨0x0, 7, 1⟩
  | .oneshot  => ⟨0x0, 6, 1⟩
  | .ocfault  => ⟨0x0, 4, 2⟩
  | .cjdis    => ⟨0x0, 3, 1⟩
  | .fltmode  => ⟨0x0, 2, 1⟩
  | .fltclr   => ⟨0x0, 1, 1⟩
  | .notch    => ⟨0x0, 0, 1⟩
  | .tctype   => ⟨0x1, 0, 4⟩
  | .avgsel   => ⟨0x1, 4, 3⟩
  | .mCjhigh  => ⟨0x2, 5, 1⟩
  | .mCjlow   => ⟨0x2, 4, 1⟩
  | .mTchigh  => ⟨0x2, 3, 1⟩
  | .mTclow   => ⟨0x2, 2, 1⟩
  | .mOvuv    => ⟨0x2, 1, 1⟩
  | .mOpen    => ⟨0x2, 0, 1⟩
  | .cjrange  => ⟨0xF, 7, 1⟩
  | .tcrange  => ⟨0xF, 6, 1⟩
  | .cjhigh   => ⟨0xF, 5, 1⟩
  | .cjlow    => ⟨0xF, 4, 1⟩
  | .tchigh   => ⟨0xF, 3, 1⟩
  | .tclow    => ⟨0xF, 2, 1⟩
  | .ovuv     => ⟨0xF, 1, 1⟩
  | .openFlag => ⟨0xF, 0, 1⟩

/-- The value of a bitfield (R143). No bitfield is signed. -/
def readField (m : Image) (f : BitField) : BitVec (fieldLayout f).width :=
  slice (m.reg (fieldLayout f).reg) (fieldLayout f).lsb (fieldLayout f).width

/-- The image with a bitfield replaced; the other bits of the register, reserved bits included, keep their values
(R144, R32). -/
def writeField (m : Image) (f : BitField) (v : Byte) : Image :=
  m.setReg (fieldLayout f).reg
    (mergeField (m.reg (fieldLayout f).reg) (fieldLayout f).lsb (fieldLayout f).width v)

/-- Where a scalar lies: `count` registers from `base`, the high byte at `base` (R107). -/
structure ScalarLayout where
  base  : RegAddr
  count : Nat
  deriving DecidableEq, Repr

/-- The scalar table (R107; spec/10_state.md R33 to R39). -/
def scalarLayout : Scalar → ScalarLayout
  | .cjhf  => ⟨0x3, 1⟩
  | .cjlf  => ⟨0x4, 1⟩
  | .lthft => ⟨0x5, 2⟩
  | .ltlft => ⟨0x7, 2⟩
  | .cjto  => ⟨0x9, 1⟩
  | .cjt   => ⟨0xA, 2⟩
  | .ltc   => ⟨0xC, 3⟩

/-- The width `w = 8n` of a scalar in bits (R107). -/
def scalarWidth (x : Scalar) : Nat := 8 * (scalarLayout x).count

/-- The raw pattern of a scalar, big-endian (R145). -/
def readScalar (m : Image) (x : Scalar) : BitVec (scalarWidth x) :=
  m.memRead (scalarLayout x).base (scalarLayout x).count

/-- The image with all registers of a scalar replaced together (R146, R80). -/
def writeScalar (m : Image) (x : Scalar) (v : BitVec (scalarWidth x)) : Image :=
  m.memWrite (scalarLayout x).base (scalarLayout x).count v

end Sys2Proof.Machine
end

