-- ==== Sys2Proof/Machine/RegisterImage.lean ====
section
/-!
DEFINITION. The register-image commands (spec/40_register_image_ops.md R140 to R149).
-/

namespace Sys2Proof.Machine

/-- The category of a TCTYPE value: eight thermocouple types and two voltage-input gain modes
(spec/10_state.md R28). -/
inductive TcCategory where
  | typeB | typeE | typeJ | typeK | typeN | typeR | typeS | typeT
  /-- first voltage-input gain mode -/
  | vm1
  /-- second voltage-input gain mode -/
  | vm2
  deriving DecidableEq, Repr

/-- The category map (R28, R147): 0 to 7 the types in order, 8 to 11 VM1, 12 to 15 VM2. -/
def tcCategory (t : BitVec 4) : TcCategory :=
  match t.toNat with
  | 0 => .typeB | 1 => .typeE | 2 => .typeJ | 3 => .typeK
  | 4 => .typeN | 5 => .typeR | 6 => .typeS | 7 => .typeT
  | 8 | 9 | 10 | 11 => .vm1
  | _ => .vm2

/-- The result code of DTYP (spec/30_encoding.md R120). -/
def tcCategoryCode : TcCategory → Word
  | .typeB => 0 | .typeE => 1 | .typeJ => 2 | .typeK => 3
  | .typeN => 4 | .typeR => 5 | .typeS => 6 | .typeT => 7
  | .vm1 => 8 | .vm2 => 9

/-- The sample count of an AVGSEL value, `2^min(AVGSEL, 4)` (spec/10_state.md R29, R148). -/
def sampleCount (sel : BitVec 3) : Nat := 2 ^ min sel.toNat 4

/-- DFLT (R140). -/
def execDflt (s : State) : Host.Outcome State Fault Refusal := s.store factoryDefault

/-- RDB a (R141). -/
def execRdb (a : RegAddr) (s : State) : Host.Outcome State Fault Refusal :=
  s.answer (.ofWord (zext32 (s.image.reg a)))

/-- WRB a, v (R142). -/
def execWrb (a : RegAddr) (s : State) : Host.Outcome State Fault Refusal :=
  if fitsUnsigned 8 s.port.wdata then s.store (s.image.setReg a (slice s.port.wdata 0 8))
  else s.raise .errRange

/-- RDF f (R143). -/
def execRdf (f : BitField) (s : State) : Host.Outcome State Fault Refusal :=
  s.answer (.ofWord (zext32 (readField s.image f)))

/-- WRF f, v (R144). -/
def execWrf (f : BitField) (s : State) : Host.Outcome State Fault Refusal :=
  if fitsUnsigned (fieldLayout f).width s.port.wdata then
    s.store (writeField s.image f (slice s.port.wdata 0 8))
  else s.raise .errRange

/-- RDS s (R145). -/
def execRds (x : Scalar) (s : State) : Host.Outcome State Fault Refusal :=
  s.answer (.ofWord (sext32 (readScalar s.image x)))

/-- WRS s, v (R146). -/
def execWrs (x : Scalar) (s : State) : Host.Outcome State Fault Refusal :=
  if fitsSigned (scalarWidth x) s.port.wdata then
    s.store (writeScalar s.image x (slice s.port.wdata 0 (scalarWidth x)))
  else s.raise .errRange

/-- DTYP (R147): the category of `R[1][3:0]`. -/
def execDtyp (s : State) : Host.Outcome State Fault Refusal :=
  s.answer (.ofWord (tcCategoryCode (tcCategory (slice (s.image.reg 1) 0 4))))

/-- DAVG (R148): the sample count of `R[1][6:4]`. -/
def execDavg (s : State) : Host.Outcome State Fault Refusal :=
  s.answer (.ofWord (BitVec.ofNat 32 (sampleCount (slice (s.image.reg 1) 4 3))))

end Sys2Proof.Machine
end

