-- ==== Sys2Proof/Machine/Scaler.lean ====
section
/-!
DEFINITION. The signed fixed-point scaler (spec/42_scaler_ops.md R200 to R212).
-/

namespace Sys2Proof.Machine

/-- compute_values (R200 to R207): the seven mantissas, from the image as it stands. -/
def computeValues (m : Image) : DerivedValues where
  cjhf  := sext32 (m.reg 0x3)
  cjlf  := sext32 (m.reg 0x4)
  lthft := sext32 (m.reg 0x5 ++ m.reg 0x6)
  ltlft := sext32 (m.reg 0x7 ++ m.reg 0x8)
  cjto  := sext32 (m.reg 0x9)
  cjt   := sext32 (m.reg 0xA ++ m.reg 0xB)
  ltct  := asr (sext32 (m.reg 0xC ++ m.reg 0xD ++ m.reg 0xE)) LTC_SHIFT

/-- CALC (R200). -/
def execCalc (s : State) : Host.Outcome State Fault Refusal :=
  s.answer (.ofDerived (computeValues s.image))

/-- The seven derived values by name (R119). -/
inductive DerivedName where
  | cjhf | cjlf | lthft | ltlft | cjto | cjt | ltct
  deriving DecidableEq, Repr

/-- `FRAC_X`, the number of fraction bits of derived value X (spec/00_scope.md R8, R119). -/
def fracBits : DerivedName → Nat
  | .cjhf => 0 | .cjlf => 0 | .lthft => 4 | .ltlft => 4 | .cjto => 4 | .cjt => 8 | .ltct => 7

/-- The mantissa `m_X` of a derived value, as an integer (R119). -/
def mantissa (d : DerivedValues) : DerivedName → Int
  | .cjhf => d.cjhf.toInt
  | .cjlf => d.cjlf.toInt
  | .lthft => d.lthft.toInt
  | .ltlft => d.ltlft.toInt
  | .cjto => d.cjto.toInt
  | .cjt => d.cjt.toInt
  | .ltct => d.ltct.toInt

/-- The temperature in degrees Celsius, the exact rational number `m_X * 2^-FRAC_X` (R8, R119). It is a reading of
the outputs and no field of them (log entry 8, DESIGN CHOICE, safe). -/
def celsius (d : DerivedValues) (n : DerivedName) : Rat := mkRat (mantissa d n) (2 ^ fracBits n)

end Sys2Proof.Machine
end

