-- ==== Sys2Proof/Machine/Dispatch.lean ====
section
/-!
DEFINITION. One arm per command, each one direct call of its meaning (spec/30_encoding.md R103).
-/

namespace Sys2Proof.Machine

def exec (i : Instr) (s : State) : Host.Outcome State Fault Refusal :=
  match i with
  | .dflt => Sys2Proof.Machine.execDflt s
  | .rdb a => Sys2Proof.Machine.execRdb a s
  | .wrb a => Sys2Proof.Machine.execWrb a s
  | .rdf f => Sys2Proof.Machine.execRdf f s
  | .wrf f => Sys2Proof.Machine.execWrf f s
  | .rds x => Sys2Proof.Machine.execRds x s
  | .wrs x => Sys2Proof.Machine.execWrs x s
  | .dtyp => Sys2Proof.Machine.execDtyp s
  | .davg => Sys2Proof.Machine.execDavg s
  | .load => Sys2Proof.Machine.execLoad s
  | .pack => Sys2Proof.Machine.execPack s
  | .rdrq => Sys2Proof.Machine.execRdrq s
  | .calcDv => Sys2Proof.Machine.execCalc s

end Sys2Proof.Machine
end

