-- ==== Sys2Proof/Machine/Step.lean ====
section
/-!
DEFINITION. One step: the block takes the next transaction the host presents and carries it out
(spec/00_scope.md R12, spec/20_memory.md R81). Reset has priority over the command presented with it
(spec/70_reset_and_hazards.md R260); a word that names no command is rejected with `ST_ERR_CMD` before any
operand is looked at (spec/60_exceptions.md R233, R237).
-/

namespace Sys2Proof.Machine

/-- One step of the machine: one transaction (R12, R100). -/
def step (s : State) : Host.Outcome State Fault Refusal :=
  match s.accept with
  | none => s.idle
  | some t =>
    match t.port.rst, t.command with
    | true, _ => t.resetBlock
    | false, .ok i => exec i t
    | false, .error e => t.rejectWord e

/-- `s` with the 16-bit command word `w` presented as the very next transaction, so that the next step carries
out exactly it. It stands for the host's presentation of a command (R56; log entry 3): a command is not
fetched. -/
def State.withFetchWord (s : State) (nbits w : Nat) : State :=
  s.present (BitVec.ofNat 16 (w % 2 ^ nbits))

end Sys2Proof.Machine
end

