-- ==== Sys2Proof/Machine/Assembler.lean ====
section
/-!
DEFINITION. The spec's assembler syntax (spec/30_encoding.md R122): one command a line, the mnemonic, its selector
by name or number, its data operand after a comma, `;` starting a comment, a buffer as a bracketed byte list. The
result is the transaction the line writes down. The assembler does not ask whether a numeric selector is legal
(R122: the word is `(op << 8) | sel`), so illegal words can be written; the machine rejects them. The machine never
uses this file. What R122 leaves open of the notation is log entry 12 (DESIGN CHOICE).
-/

namespace Sys2Proof.Machine

inductive AsmToken where
  | word (chars : List Char)
  | comma
  | openBracket
  | closeBracket
  deriving DecidableEq, Repr

/-- The characters collected so far (last first), as a token in front of the tokens after them. -/
def asmFlush (acc : List Char) (ts : List AsmToken) : List AsmToken :=
  match acc with
  | [] => ts
  | _ :: _ => .word acc.reverse :: ts

/-- The tokens of one line; `;` ends it (R122). -/
def asmTokens : List Char → List Char → List AsmToken
  | [], acc => asmFlush acc []
  | c :: cs, acc =>
    if c = ';' then asmFlush acc []
    else if c = ' ' ∨ c = '\t' then asmFlush acc (asmTokens cs [])
    else if c = ',' then asmFlush acc (.comma :: asmTokens cs [])
    else if c = '[' then asmFlush acc (.openBracket :: asmTokens cs [])
    else if c = ']' then asmFlush acc (.closeBracket :: asmTokens cs [])
    else asmTokens cs (c :: acc)

/-- The value of one digit in base `base`. -/
def asmDigit (base : Nat) (c : Char) : Option Nat :=
  let n := c.toNat
  let v := if 48 ≤ n ∧ n ≤ 57 then n - 48
    else if 65 ≤ n ∧ n ≤ 70 then n - 55
    else if 97 ≤ n ∧ n ≤ 102 then n - 87
    else base
  if v < base then some v else none

/-- One or more digits in base `base`, after the value `acc` of those already read. -/
def asmDigits (base : Nat) : List Char → Nat → Option Nat
  | [], _ => none
  | [c], acc => (asmDigit base c).map (acc * base + ·)
  | c :: c' :: cs, acc => (asmDigit base c).bind fun d => asmDigits base (c' :: cs) (acc * base + d)

/-- A number: decimal, optionally signed, or `0x` hexadecimal (R122). -/
def asmNumber : List Char → Option Int
  | '0' :: 'x' :: cs => (asmDigits 16 cs 0).map Int.ofNat
  | '-' :: cs => (asmDigits 10 cs 0).map fun n => -(n : Int)
  | '+' :: cs => (asmDigits 10 cs 0).map Int.ofNat
  | cs => (asmDigits 10 cs 0).map Int.ofNat

/-- The number of the first name in the list that matches. -/
def asmIndex (names : List String) (cs : List Char) : Option Nat :=
  names.findIdx? fun n => n.toList = cs

/-- The register names, in address order (spec/10_state.md R21). -/
def registerNames : List String :=
  ["CR0", "CR1", "MASK", "CJHF", "CJLF", "LTHFT.H", "LTHFT.L", "LTLFT.H", "LTLFT.L", "CJTO", "CJT.H", "CJT.L",
   "LTC.H", "LTC.M", "LTC.L", "SR"]

/-- The bitfield names, in selector order (R106). -/
def bitFieldNames : List String :=
  ["CMODE", "ONESHOT", "OCFAULT", "CJDIS", "FLTMODE", "FLTCLR", "NOTCH", "TCTYPE", "AVGSEL",
   "M_CJHIGH", "M_CJLOW", "M_TCHIGH", "M_TCLOW", "M_OVUV", "M_OPEN",
   "CJRANGE", "TCRANGE", "CJHIGH", "CJLOW", "TCHIGH", "TCLOW", "OVUV", "OPEN"]

/-- The scalar names, in selector order (R107). -/
def scalarNames : List String := ["CJHF", "CJLF", "LTHFT", "LTLFT", "CJTO", "CJT", "LTC"]

/-- A selector: a name of the format's list, or a number that fits `sel` (R101, R122). -/
def asmSelector (names : List String) (cs : List Char) : Option (BitVec 8) :=
  match asmIndex names cs with
  | some k => some (BitVec.ofNat 8 k)
  | none => (asmNumber cs).bind fun v => if 0 ≤ v ∧ v ≤ 255 then some (BitVec.ofInt 8 v) else none

/-- A data operand: a number that fits `wdata`, signed or unsigned, as its 32-bit pattern (R108, R109, R122). -/
def asmData (cs : List Char) : Option Word :=
  (asmNumber cs).bind fun v => if -(2 ^ 31) ≤ v ∧ v < 2 ^ 32 then some (BitVec.ofInt 32 v) else none

/-- One byte of a bracketed list. -/
def asmByte (cs : List Char) : Option Byte :=
  (asmNumber cs).bind fun v => if 0 ≤ v ∧ v ≤ 255 then some (BitVec.ofInt 8 v) else none

/-- The bytes of a bracketed list, after its opening bracket. -/
def asmBytes : List AsmToken → Option (List Byte)
  | [.word cs, .closeBracket] => (asmByte cs).map fun b => [b]
  | .word cs :: .comma :: ts => (asmByte cs).bind fun b => (asmBytes ts).map (b :: ·)
  | _ => none

/-- The transaction of a command word and its operands; `rst` is no part of the syntax. -/
def asmRequest (op sel : BitVec 8) (wdata : Word) (bin : List Byte) : Request :=
  { rst := false, cmd := op ++ sel, wdata := wdata, bin := bin }

/-- A command without operands. -/
def asmPlain (op : BitVec 8) : List AsmToken → Option Request
  | [] => some (asmRequest op 0 0 [])
  | _ => none

/-- A command with a selector. -/
def asmRead (op : BitVec 8) (names : List String) : List AsmToken → Option Request
  | [.word s] => (asmSelector names s).map fun sel => asmRequest op sel 0 []
  | _ => none

/-- A command with a selector and a data operand. -/
def asmWrite (op : BitVec 8) (names : List String) : List AsmToken → Option Request
  | [.word s, .comma, .word d] =>
    (asmSelector names s).bind fun sel => (asmData d).map fun v => asmRequest op sel v []
  | _ => none

/-- LOAD with its byte list; `[]` is the list of no bytes. -/
def asmLoad (op : BitVec 8) : List AsmToken → Option Request
  | [.openBracket, .closeBracket] => some (asmRequest op 0 0 [])
  | .openBracket :: ts => (asmBytes ts).map fun bin => asmRequest op 0 0 bin
  | _ => none

/-- The mnemonics in the order of R103, each with the reader of its operands. There are no pseudo-instructions. -/
def asmCommands : List (String × (List AsmToken → Option Request)) :=
  [("DFLT", asmPlain 0x01), ("RDB", asmRead 0x02 registerNames), ("WRB", asmWrite 0x03 registerNames),
   ("RDF", asmRead 0x04 bitFieldNames), ("WRF", asmWrite 0x05 bitFieldNames),
   ("RDS", asmRead 0x06 scalarNames), ("WRS", asmWrite 0x07 scalarNames),
   ("DTYP", asmPlain 0x08), ("DAVG", asmPlain 0x09),
   ("LOAD", asmLoad 0x10), ("PACK", asmPlain 0x11), ("RDRQ", asmPlain 0x12), ("CALC", asmPlain 0x20)]

/-- The transaction one line of assembler text writes down; `none` where the line writes no command. -/
def assemble (line : List Char) : Option Request :=
  match asmTokens line [] with
  | .word m :: ts => (asmCommands.find? fun c => c.1.toList = m).bind fun c => c.2 ts
  | _ => none

end Sys2Proof.Machine
end

