-- ==== Sys2Proof/Safety.lean ====
section
/-!
DEFINITION. The terms the claims are stated in: the integer readings of bytes (spec/00_scope.md R11), what a
command may read, write and answer (spec/10_state.md R25, spec/60_exceptions.md R235), which words are illegal
(spec/30_encoding.md R111, R112), and the invariant of the machine.
-/

namespace Sys2Proof.Safety

open Sys2Proof.Machine

/-- `signed_w(v)`: the integer a `w`-bit pattern, given as a number, denotes in two's complement (R11). -/
def signedValue (w v : Nat) : Int := if v < 2 ^ (w - 1) then (v : Int) else (v : Int) - 2 ^ w

/-- The unsigned number a list of bytes denotes, most significant byte first (R23, R73). -/
def bigEndian : List Byte → Nat
  | [] => 0
  | b :: bs => b.toNat * 2 ^ (8 * bs.length) + bigEndian bs

/-- The registers of a scalar, high byte first (R107). -/
def scalarRegs : Scalar → List RegAddr
  | .cjhf => [0x3]
  | .cjlf => [0x4]
  | .lthft => [0x5, 0x6]
  | .ltlft => [0x7, 0x8]
  | .cjto => [0x9]
  | .cjt => [0xA, 0xB]
  | .ltc => [0xC, 0xD, 0xE]

/-- The width of a scalar in bits: eight times its number of registers (R107). -/
def scalarBits (x : Scalar) : Nat := 8 * (scalarRegs x).length

/-- The bytes of a scalar, high byte first. -/
def scalarBytes (m : Image) (x : Scalar) : List Byte := (scalarRegs x).map m.reg

/-- The signed value of a scalar of an image (R33 to R39). -/
def scalarValue (m : Image) (x : Scalar) : Int := signedValue (scalarBits x) (bigEndian (scalarBytes m x))

/-- The factory default bytes in address order, as R60 prints them. -/
def defaultBytes : List Byte :=
  [0x00, 0x03, 0xFF, 0x7F, 0xC0, 0x7F, 0xFF, 0x80, 0x00, 0x00, 0x00, 0x00, 0x00, 0x00, 0x00, 0x00]

/-- No result word, no buffer, no derived values. -/
def NoResult (o : Outputs) : Prop := o.rdata = 0 ∧ o.bout = [] ∧ o.boutLen = 0 ∧ o.dv = .zero

/-- `ST_OK` with no result: the outputs of DFLT, WRB, WRF, WRS and LOAD. -/
def PlainOk (o : Outputs) : Prop := o.st = 0 ∧ NoResult o

/-- `ST_OK` with a result word at most: the outputs of RDB, RDF, RDS, DTYP and DAVG. -/
def WordOk (o : Outputs) : Prop := o.st = 0 ∧ o.bout = [] ∧ o.boutLen = 0 ∧ o.dv = .zero

/-- `ST_OK` with a buffer at most: the outputs of PACK and RDRQ. -/
def FrameOk (o : Outputs) : Prop := o.st = 0 ∧ o.rdata = 0 ∧ o.dv = .zero

/-- `ST_OK` with derived values at most: the outputs of CALC. -/
def DerivedOk (o : Outputs) : Prop := o.st = 0 ∧ o.rdata = 0 ∧ o.bout = [] ∧ o.boutLen = 0

/-- The input ports and what the host presents next are the same. -/
def SameInputs (s t : State) : Prop := t.port = s.port ∧ t.pending = s.pending

/-- `t` is `s` after a rejection with the error code `e` (R231). -/
def Rejected (e : BitVec 2) (s t : State) : Prop :=
  t.image = s.image ∧ t.out.st = e ∧ NoResult t.out ∧ SameInputs s t

/-- Presented as the next command, the word is rejected with `ST_ERR_CMD`, whatever its operands (R233, R237). -/
def RejectsWord (w : Command) : Prop :=
  ∀ s r rest, s.pending = r :: rest → r.rst = false → r.cmd = w →
    ∃ t, step s = .next t ∧ t.image = s.image ∧ t.out.st = 3 ∧ NoResult t.out ∧ t.port = r ∧ t.pending = rest

/-- The words R111 and R112 call illegal, by the numbers `op = w / 256` and `sel = w % 256`. -/
def IllegalNumber (w : Nat) : Prop :=
  w / 256 ∉ [0x01, 0x02, 0x03, 0x04, 0x05, 0x06, 0x07, 0x08, 0x09, 0x10, 0x11, 0x12, 0x20] ∨
  (w / 256 ∈ [0x01, 0x08, 0x09, 0x10, 0x11, 0x12, 0x20] ∧ w % 256 ≠ 0) ∨
  (w / 256 ∈ [0x02, 0x03] ∧ 0x0F < w % 256) ∨
  (w / 256 ∈ [0x04, 0x05] ∧ 22 < w % 256) ∨
  (w / 256 ∈ [0x06, 0x07] ∧ 6 < w % 256)

/-- The mnemonic of a command (R103). -/
def mnemonic : Instr → String
  | .dflt => "DFLT" | .rdb _ => "RDB" | .wrb _ => "WRB" | .rdf _ => "RDF" | .wrf _ => "WRF"
  | .rds _ => "RDS" | .wrs _ => "WRS" | .dtyp => "DTYP" | .davg => "DAVG"
  | .load => "LOAD" | .pack => "PACK" | .rdrq => "RDRQ" | .calcDv => "CALC"

/-- All sixteen register addresses. -/
def allRegs : List RegAddr := [0x0, 0x1, 0x2, 0x3, 0x4, 0x5, 0x6, 0x7, 0x8, 0x9, 0xA, 0xB, 0xC, 0xD, 0xE, 0xF]

/-- The twelve registers a write frame carries (R7, R117). -/
def writableRegs : List RegAddr := [0x0, 0x1, 0x2, 0x3, 0x4, 0x5, 0x6, 0x7, 0x8, 0x9, 0xA, 0xB]

/-- The registers a command may write (R25). -/
def writes : Instr → List RegAddr
  | .dflt => allRegs
  | .load => allRegs
  | .wrb a => [a]
  | .wrf f => [(fieldLayout f).reg]
  | .wrs x => scalarRegs x
  | .rdb _ => [] | .rdf _ => [] | .rds _ => [] | .dtyp => [] | .davg => []
  | .pack => [] | .rdrq => [] | .calcDv => []

/-- The registers a command may read (R25). -/
def reads : Instr → List RegAddr
  | .rdb a => [a]
  | .rdf f => [(fieldLayout f).reg]
  | .wrf f => [(fieldLayout f).reg]
  | .rds x => scalarRegs x
  | .dtyp => [0x1]
  | .davg => [0x1]
  | .pack => writableRegs
  | .calcDv => [0x3, 0x4, 0x5, 0x6, 0x7, 0x8, 0x9, 0xA, 0xB, 0xC, 0xD, 0xE]
  | .dflt => [] | .wrb _ => [] | .wrs _ => [] | .load => [] | .rdrq => []

/-- The statuses a command, once decoded, can end with (R235). -/
def statuses : Instr → List Status
  | .wrb _ => [.ok, .errRange]
  | .wrf _ => [.ok, .errRange]
  | .wrs _ => [.ok, .errRange]
  | .load => [.ok, .errLen]
  | .dflt => [.ok] | .rdb _ => [.ok] | .rdf _ => [.ok] | .rds _ => [.ok]
  | .dtyp => [.ok] | .davg => [.ok] | .pack => [.ok] | .rdrq => [.ok] | .calcDv => [.ok]

/-- Two images agree on the registers listed. -/
def Agree (regs : List RegAddr) (m m' : Image) : Prop := ∀ a ∈ regs, m.reg a = m'.reg a

/-- The range of each mantissa (R119). -/
def MantissaInRange (d : DerivedValues) : Prop :=
  (-128 ≤ mantissa d .cjhf ∧ mantissa d .cjhf ≤ 127) ∧
  (-128 ≤ mantissa d .cjlf ∧ mantissa d .cjlf ≤ 127) ∧
  (-32768 ≤ mantissa d .lthft ∧ mantissa d .lthft ≤ 32767) ∧
  (-32768 ≤ mantissa d .ltlft ∧ mantissa d .ltlft ≤ 32767) ∧
  (-128 ≤ mantissa d .cjto ∧ mantissa d .cjto ≤ 127) ∧
  (-32768 ≤ mantissa d .cjt ∧ mantissa d .cjt ≤ 32767) ∧
  (-262144 ≤ mantissa d .ltct ∧ mantissa d .ltct ≤ 262143)

/-- What the output ports may show: `bout_len` counts the bytes of `bout` (R100); a buffer is a write frame headed
by `0x80` or the read request (R70, R115, R117); a rejected command shows no result (R231); a command shows at most
one kind of result (R149, R180, R200); mantissas are in their ranges (R119). -/
def OutputsWellFormed (o : Outputs) : Prop :=
  o.boutLen.toNat = o.bout.length ∧
  (o.bout = [] ∨ (o.bout.length = 13 ∧ o.bout.head? = some 0x80) ∨ o.bout = List.replicate 17 0x00) ∧
  (o.st ≠ 0 → NoResult o) ∧
  (o.rdata ≠ 0 → o.bout = [] ∧ o.dv = .zero) ∧
  (o.bout ≠ [] → o.dv = .zero) ∧
  MantissaInRange o.dv

/-- The invariant of the machine: the outputs are well formed, and no input buffer is longer than `blen` can count
(R100). -/
def StateInv (s : State) : Prop :=
  OutputsWellFormed s.out ∧ bufferWellFormed s.port.bin = true ∧
    ∀ r ∈ s.pending, bufferWellFormed r.bin = true

/-- Two machines whose images agree on the twelve writable registers, with the same ports and the same buffer on
the wire: an observer of the wire cannot tell them apart (R183). -/
def WireEqual (s s' : State) : Prop :=
  Agree writableRegs s.image s'.image ∧ s.port = s'.port ∧ s.pending = s'.pending ∧
    s.out.bout = s'.out.bout ∧ s.out.boutLen = s'.out.boutLen

/-- One line of assembler text for a command: its mnemonic, its selector by name, and for a write the data
operand 0; LOAD gets the empty list (R122). -/
def asmText : Instr → List Char
  | .rdb a => "RDB ".toList ++ (registerNames.getD a.toNat "").toList
  | .wrb a => "WRB ".toList ++ (registerNames.getD a.toNat "").toList ++ ", 0".toList
  | .rdf f => "RDF ".toList ++ (bitFieldNames.getD f.sel.toNat "").toList
  | .wrf f => "WRF ".toList ++ (bitFieldNames.getD f.sel.toNat "").toList ++ ", 0".toList
  | .rds x => "RDS ".toList ++ (scalarNames.getD x.sel.toNat "").toList
  | .wrs x => "WRS ".toList ++ (scalarNames.getD x.sel.toNat "").toList ++ ", 0".toList
  | .load => "LOAD []".toList
  | .dflt => "DFLT".toList | .dtyp => "DTYP".toList | .davg => "DAVG".toList
  | .pack => "PACK".toList | .rdrq => "RDRQ".toList | .calcDv => "CALC".toList

end Sys2Proof.Safety
end

