-- ==== Sys2Proof/Certificates/Slice0/Obligations.lean ====
section
/-!
DEFINITION. The statements for the provers, from the numbered rules of spec/. `RejectsWord`, `Rejected`, `PlainOk`,
`WordOk`, `FrameOk`, `DerivedOk`, `SameInputs` and the integer readings are defined in Sys2Proof/Safety.lean.
Where a statement names a decision of the spec (D<n>), the rule cited states it.
-/

open Sys2Proof Sys2Proof.Machine Sys2Proof.Safety

/-! ## Encoding -/

/-- The words spec/30_encoding.md section 8 (R122) prints beside its thirteen lines decode to those commands. -/
def Obligations.PrintedWordsDecode : Prop :=
  decode 0x0100 = .ok .dflt ∧ decode 0x020F = .ok (.rdb 0xF) ∧ decode 0x0303 = .ok (.wrb 0x3) ∧
  decode 0x0408 = .ok (.rdf .avgsel) ∧ decode 0x0508 = .ok (.wrf .avgsel) ∧
  decode 0x0606 = .ok (.rds .ltc) ∧ decode 0x0702 = .ok (.wrs .lthft) ∧
  decode 0x0800 = .ok .dtyp ∧ decode 0x0900 = .ok .davg ∧ decode 0x1000 = .ok .load ∧
  decode 0x1100 = .ok .pack ∧ decode 0x1200 = .ok .rdrq ∧ decode 0x2000 = .ok .calcDv

/-- A word decodes to a command exactly when it is that command's encoding: no bit is dropped, no two commands
share a word, and no word has two readings. -/
def Obligations.DecodeInvertsEncode : Prop := ∀ w i, decode w = .ok i ↔ encode i = w

/-- The rows of the match/mask table that select a word are one row, that of the command the word decodes to, or
none where the word is illegal (spec/30_encoding.md section 2). -/
def Obligations.DecodeFollowsTheMatchTable : Prop :=
  ∀ w, (commandTable.filter (·.selects w)).map (·.mnemonic) =
    match decode w with
    | .ok i => [mnemonic i]
    | .error _ => []

/-- R106: each selector 0 to 22 names its bitfield, at the printed register, lowest bit and width; no selector
above 22 names one; and the field is bits `lsb+w-1` to `lsb` of its register. -/
def Obligations.BitfieldTable : Prop :=
  (∀ row ∈ ([(0, .cmode, 0x0, 7, 1), (1, .oneshot, 0x0, 6, 1), (2, .ocfault, 0x0, 4, 2), (3, .cjdis, 0x0, 3, 1),
      (4, .fltmode, 0x0, 2, 1), (5, .fltclr, 0x0, 1, 1), (6, .notch, 0x0, 0, 1), (7, .tctype, 0x1, 0, 4),
      (8, .avgsel, 0x1, 4, 3), (9, .mCjhigh, 0x2, 5, 1), (10, .mCjlow, 0x2, 4, 1), (11, .mTchigh, 0x2, 3, 1),
      (12, .mTclow, 0x2, 2, 1), (13, .mOvuv, 0x2, 1, 1), (14, .mOpen, 0x2, 0, 1), (15, .cjrange, 0xF, 7, 1),
      (16, .tcrange, 0xF, 6, 1), (17, .cjhigh, 0xF, 5, 1), (18, .cjlow, 0xF, 4, 1), (19, .tchigh, 0xF, 3, 1),
      (20, .tclow, 0xF, 2, 1), (21, .ovuv, 0xF, 1, 1), (22, .openFlag, 0xF, 0, 1)] :
        List (BitVec 8 × BitField × RegAddr × Nat × Nat)),
    BitField.ofSel row.1 = some row.2.1 ∧ fieldLayout row.2.1 = ⟨row.2.2.1, row.2.2.2.1, row.2.2.2.2⟩) ∧
  (∀ sel : BitVec 8, 22 < sel.toNat → BitField.ofSel sel = none) ∧
  ∀ m f, (readField m f).toNat =
    (m.reg (fieldLayout f).reg).toNat / 2 ^ (fieldLayout f).lsb % 2 ^ (fieldLayout f).width

/-- R107: each selector 0 to 6 names its scalar, at the printed base address and number of registers; its width is
`8n` bits and its legal signed range is the printed one; no selector above 6 names one; and the scalar is its
registers, the one at the base address most significant. -/
def Obligations.ScalarTable : Prop :=
  (∀ row ∈ ([(0, .cjhf, 0x3, 1, -128, 127), (1, .cjlf, 0x4, 1, -128, 127), (2, .lthft, 0x5, 2, -32768, 32767),
      (3, .ltlft, 0x7, 2, -32768, 32767), (4, .cjto, 0x9, 1, -128, 127), (5, .cjt, 0xA, 2, -32768, 32767),
      (6, .ltc, 0xC, 3, -8388608, 8388607)] : List (BitVec 8 × Scalar × RegAddr × Nat × Int × Int)),
    Scalar.ofSel row.1 = some row.2.1 ∧ scalarLayout row.2.1 = ⟨row.2.2.1, row.2.2.2.1⟩ ∧
    scalarWidth row.2.1 = 8 * row.2.2.2.1 ∧ (scalarRegs row.2.1).head? = some row.2.2.1 ∧
    ∀ v : Word, fitsSigned (scalarWidth row.2.1) v = true ↔ row.2.2.2.2.1 ≤ v.toInt ∧ v.toInt ≤ row.2.2.2.2.2) ∧
  (∀ sel : BitVec 8, 6 < sel.toNat → Scalar.ofSel sel = none) ∧
  ∀ m x, (readScalar m x).toNat = bigEndian (scalarBytes m x)

/-- R122, sections 3 and 8 of spec/30_encoding.md: a command written with its names assembles to its word. The text
form of a line is the model's reading of R122 (log entry 12, DESIGN CHOICE). -/
def Obligations.AssemblerWritesTheEncoding : Prop :=
  ∀ i, (assemble (asmText i)).map (·.cmd) = some (encode i)

/-- R111, R112: every word the two rules call illegal is rejected with `ST_ERR_CMD`, writes nothing and returns
zero results, whatever its operands. -/
def Obligations.IllegalWordsAreRejected : Prop :=
  ∀ w : Command, IllegalNumber w.toNat → RejectsWord w

/-! ## The step -/

/-- Spec/20_memory.md section 5: the block carries out the first command presented, with the rest still to come.
A word that decodes to `i` is carried out by `exec i` on the state whose ports hold that transaction. -/
def Obligations.StepRunsTheDecodedCommand : Prop :=
  ∀ s r rest i, s.pending = r :: rest → r.rst = false → decode r.cmd = .ok i →
    step s = exec i (s.setPorts r rest)

/-- The model's own choice (log entry 2): where the host presents nothing, a step changes nothing. -/
def Obligations.NothingPresentedNothingChanges : Prop :=
  ∀ s : State, s.pending = [] → step s = .next s

/-- R61, R260: a transaction with `rst` asserted gives every register its default byte and zero outputs, whatever
command stands beside it; the next command is the next one presented; and the command DFLT produces the same
image. -/
def Obligations.ResetLoadsTheDefaults : Prop :=
  ∀ s r rest, s.pending = r :: rest → r.rst = true →
    ∃ t, step s = .next t ∧ t.image.toList = defaultBytes ∧ PlainOk t.out ∧ t.port = r ∧ t.pending = rest ∧
      ∃ u, exec .dflt s = .next u ∧ u.image = t.image

/-- Spec/10_state.md section 5: what every register and every field holds after reset, the derived values of that
image in degrees, and the outputs of reset. The input ports are not named: their values there are the model's choice
(log entry 5). -/
def Obligations.ResetValuesOfEveryField : Prop :=
  State.reset.image.toList = defaultBytes ∧
  (∀ row ∈ ([(.cmode, 0), (.oneshot, 0), (.ocfault, 0), (.cjdis, 0), (.fltmode, 0), (.fltclr, 0), (.notch, 0),
      (.tctype, 3), (.avgsel, 0), (.mCjhigh, 1), (.mCjlow, 1), (.mTchigh, 1), (.mTclow, 1), (.mOvuv, 1),
      (.mOpen, 1), (.cjrange, 0), (.tcrange, 0), (.cjhigh, 0), (.cjlow, 0), (.tchigh, 0), (.tclow, 0), (.ovuv, 0),
      (.openFlag, 0)] : List (BitField × Nat)), (readField State.reset.image row.1).toNat = row.2) ∧
  (∀ row ∈ ([(.cjhf, 127), (.cjlf, -64), (.lthft, 32767), (.ltlft, -32768), (.cjto, 0), (.cjt, 0), (.ltc, 0)] :
      List (Scalar × Int)), scalarValue State.reset.image row.1 = row.2) ∧
  (State.reset.image.reg 0x1)[7] = false ∧ (State.reset.image.reg 0x2)[7] = true ∧
  (State.reset.image.reg 0x2)[6] = true ∧ PlainOk State.reset.out ∧
  ∀ row ∈ ([(.cjhf, 127), (.cjlf, -64), (.lthft, 32767 / 16), (.ltlft, -2048), (.cjto, 0), (.cjt, 0), (.ltct, 0)] :
      List (DerivedName × Rat)), celsius (computeValues State.reset.image) row.1 = row.2

/-! ## Register-image commands -/

/-- R140, R60: DFLT writes the default pattern to all sixteen registers whatever they held; twice is as once; any
selector but 0 is illegal. -/
def Obligations.DfltWritesTheDefaults : Prop :=
  encode .dflt = 0x0100 ∧
  (∀ s, ∃ t, exec .dflt s = .next t ∧ t.image.toList = defaultBytes ∧ PlainOk t.out ∧ SameInputs s t ∧
    exec .dflt t = .next t) ∧
  ∀ sel : BitVec 8, sel ≠ 0 → RejectsWord (0x01#8 ++ sel)

/-- R141: RDB returns the register's byte zero-extended and changes nothing; selectors above 15 are illegal. -/
def Obligations.RdbReturnsTheByte : Prop :=
  (∀ s a, encode (.rdb a) = 0x0200#16 ||| a.setWidth 16 ∧
    ∃ t, exec (.rdb a) s = .next t ∧ t.out.rdata.toNat = (s.image.reg a).toNat ∧ WordOk t.out ∧
      t.image = s.image ∧ SameInputs s t) ∧
  ∀ sel : BitVec 8, 15 < sel.toNat → RejectsWord (0x02#8 ++ sel)

/-- R142: WRB stores a value up to 255 in the one register, the chip's read-only registers included, and rejects
any larger `wdata`; selectors above 15 are illegal. -/
def Obligations.WrbWritesOneByteOrRejects : Prop :=
  (∀ s a, encode (.wrb a) = 0x0300#16 ||| a.setWidth 16 ∧
    ∃ t, exec (.wrb a) s = .next t ∧
      if s.port.wdata.toNat ≤ 255 then
        (t.image.reg a).toNat = s.port.wdata.toNat ∧ (∀ b, b ≠ a → t.image.reg b = s.image.reg b) ∧
        PlainOk t.out ∧ SameInputs s t
      else Rejected 2 s t) ∧
  ∀ sel : BitVec 8, 15 < sel.toNat → RejectsWord (0x03#8 ++ sel)

/-- R143: RDF returns the field's unsigned value, bits `lsb+w-1` to `lsb` of its register, and changes nothing;
selectors above 22 are illegal. -/
def Obligations.RdfReturnsTheField : Prop :=
  (∀ s f, encode (.rdf f) = 0x0400#16 ||| f.sel.setWidth 16 ∧
    ∃ t, exec (.rdf f) s = .next t ∧
      t.out.rdata.toNat =
        (s.image.reg (fieldLayout f).reg).toNat / 2 ^ (fieldLayout f).lsb % 2 ^ (fieldLayout f).width ∧
      WordOk t.out ∧ t.image = s.image ∧ SameInputs s t) ∧
  ∀ sel : BitVec 8, 22 < sel.toNat → RejectsWord (0x04#8 ++ sel)

/-- R144: WRF with `wdata < 2^w` puts the value in the field's bits, keeps every other bit of the register, reserved
bits included, and every other register; a larger `wdata` is rejected, all 32 bits compared; selectors above 22 are
illegal. -/
def Obligations.WrfMergesTheFieldOrRejects : Prop :=
  (∀ s f, encode (.wrf f) = 0x0500#16 ||| f.sel.setWidth 16 ∧
    ∃ t, exec (.wrf f) s = .next t ∧
      if s.port.wdata.toNat < 2 ^ (fieldLayout f).width then
        (∀ k, k < 8 → (t.image.reg (fieldLayout f).reg).getLsbD k =
          if (fieldLayout f).lsb ≤ k ∧ k < (fieldLayout f).lsb + (fieldLayout f).width then
            s.port.wdata.getLsbD (k - (fieldLayout f).lsb)
          else (s.image.reg (fieldLayout f).reg).getLsbD k) ∧
        (∀ b, b ≠ (fieldLayout f).reg → t.image.reg b = s.image.reg b) ∧ PlainOk t.out ∧ SameInputs s t
      else Rejected 2 s t) ∧
  ∀ sel : BitVec 8, 22 < sel.toNat → RejectsWord (0x05#8 ++ sel)

/-- R145: RDS returns the scalar's bytes, high byte first, sign-extended, so that the signed value of `rdata` is
the scalar's, and changes nothing; selectors above 6 are illegal. -/
def Obligations.RdsReturnsTheSignedScalar : Prop :=
  (∀ s x, encode (.rds x) = 0x0600#16 ||| x.sel.setWidth 16 ∧
    ∃ t, exec (.rds x) s = .next t ∧
      t.out.rdata.toInt = signedValue (scalarBits x) (bigEndian (scalarBytes s.image x)) ∧
      WordOk t.out ∧ t.image = s.image ∧ SameInputs s t) ∧
  ∀ sel : BitVec 8, 6 < sel.toNat → RejectsWord (0x06#8 ++ sel)

/-- R146: WRS with a value in the signed range of the scalar's width writes its two's-complement pattern to all of
the scalar's registers, high byte first, and no other; a value out of range is rejected and none of them changes;
reading the scalar back gives `wdata` itself; selectors above 6 are illegal. -/
def Obligations.WrsWritesTheScalarOrRejects : Prop :=
  (∀ s x, encode (.wrs x) = 0x0700#16 ||| x.sel.setWidth 16 ∧
    ∃ t, exec (.wrs x) s = .next t ∧
      if -(2 ^ (scalarBits x - 1)) ≤ s.port.wdata.toInt ∧ s.port.wdata.toInt ≤ 2 ^ (scalarBits x - 1) - 1 then
        bigEndian (scalarBytes t.image x) = s.port.wdata.toNat % 2 ^ scalarBits x ∧
        (∀ b, b ∉ scalarRegs x → t.image.reg b = s.image.reg b) ∧ PlainOk t.out ∧ SameInputs s t ∧
        ∃ u, exec (.rds x) t = .next u ∧ u.out.rdata = s.port.wdata
      else Rejected 2 s t) ∧
  ∀ sel : BitVec 8, 6 < sel.toNat → RejectsWord (0x07#8 ++ sel)

/-- R147: DTYP returns the category code of `R[1][3:0]`: 0 to 7 as they are, 8 for 8 to 11, 9 for 12 to 15; the
upper bits of `R[1]` do not matter; any selector but 0 is illegal. -/
def Obligations.DtypReturnsTheCategory : Prop :=
  encode .dtyp = 0x0800 ∧
  (∀ s, ∃ t, exec .dtyp s = .next t ∧
    (t.out.rdata.toNat =
      if (s.image.reg 0x1).toNat % 16 ≤ 7 then (s.image.reg 0x1).toNat % 16
      else if (s.image.reg 0x1).toNat % 16 ≤ 11 then 8 else 9) ∧
    WordOk t.out ∧ t.image = s.image ∧ SameInputs s t) ∧
  ∀ sel : BitVec 8, sel ≠ 0 → RejectsWord (0x08#8 ++ sel)

/-- R148: DAVG returns the sample count of `R[1][6:4]`: 1, 2, 4, 8 for 0 to 3 and 16 from 4 on; the other bits of
`R[1]` do not matter; any selector but 0 is illegal. -/
def Obligations.DavgReturnsTheSampleCount : Prop :=
  encode .davg = 0x0900 ∧
  (∀ s, ∃ t, exec .davg s = .next t ∧
    (t.out.rdata.toNat =
      if (s.image.reg 0x1).toNat / 16 % 8 ≤ 3 then 2 ^ ((s.image.reg 0x1).toNat / 16 % 8) else 16) ∧
    WordOk t.out ∧ t.image = s.image ∧ SameInputs s t) ∧
  ∀ sel : BitVec 8, sel ≠ 0 → RejectsWord (0x09#8 ++ sel)

/-! ## Marshaller commands -/

/-- R181: LOAD of exactly 17 bytes overwrites all sixteen registers with the bytes at positions 1 to 16, byte 0
ignored, and twice is as once; any other length is rejected with `ST_ERR_LEN`; any selector but 0 is illegal. -/
def Obligations.LoadUnpacksOrRejects : Prop :=
  encode .load = 0x1000 ∧
  (∀ s, ∃ t, exec .load s = .next t ∧
    if s.port.blen = 17 then
      (∀ a : RegAddr, s.port.bin[a.toNat + 1]? = some (t.image.reg a)) ∧ PlainOk t.out ∧ SameInputs s t ∧
      exec .load t = .next t
    else Rejected 1 s t) ∧
  ∀ sel : BitVec 8, sel ≠ 0 → RejectsWord (0x10#8 ++ sel)

/-- R182: PACK gives the 13-byte frame `0x80, R[0], .., R[11]`, changes nothing, and gives the same frame again;
any selector but 0 is illegal. -/
def Obligations.PackGivesTheWriteFrame : Prop :=
  encode .pack = 0x1100 ∧
  (∀ s, ∃ t, exec .pack s = .next t ∧
    t.out.bout = [0x80, s.image.reg 0x0, s.image.reg 0x1, s.image.reg 0x2, s.image.reg 0x3, s.image.reg 0x4,
      s.image.reg 0x5, s.image.reg 0x6, s.image.reg 0x7, s.image.reg 0x8, s.image.reg 0x9, s.image.reg 0xA,
      s.image.reg 0xB] ∧
    t.out.boutLen = 13 ∧ FrameOk t.out ∧ t.image = s.image ∧ SameInputs s t ∧ exec .pack t = .next t) ∧
  ∀ sel : BitVec 8, sel ≠ 0 → RejectsWord (0x11#8 ++ sel)

/-- R184: RDRQ gives seventeen zero bytes whatever the image, and changes nothing; any selector but 0 is
illegal. -/
def Obligations.RdrqGivesTheReadRequest : Prop :=
  encode .rdrq = 0x1200 ∧
  (∀ s, ∃ t, exec .rdrq s = .next t ∧
    t.out.bout = [0, 0, 0, 0, 0, 0, 0, 0, 0, 0, 0, 0, 0, 0, 0, 0, 0] ∧ t.out.boutLen = 17 ∧
    FrameOk t.out ∧ t.image = s.image ∧ SameInputs s t) ∧
  ∀ sel : BitVec 8, sel ≠ 0 → RejectsWord (0x12#8 ++ sel)

/-- R183: PACK of two images that differ only in `R[12]` to `R[15]` gives the same frame. -/
def Obligations.PackIgnoresTheReadOnlyRegisters : Prop :=
  ∀ s s' t t', Agree writableRegs s.image s'.image → exec .pack s = .next t → exec .pack s' = .next t' →
    t.out = t'.out

/-- Spec/41_marshaller_ops.md section 3, the round trip: the frame PACK gives, followed by any four bytes, is a
buffer LOAD accepts, and the new image has the old `R[0]` to `R[11]` and the four bytes in `R[12]` to `R[15]`. -/
def Obligations.PackThenLoadRoundTrips : Prop :=
  ∀ s t u b₀ b₁ b₂ b₃, exec .pack s = .next t → u.port.bin = t.out.bout ++ [b₀, b₁, b₂, b₃] →
    ∃ v, exec .load u = .next v ∧ v.out.st = 0 ∧ Agree writableRegs v.image s.image ∧
      v.image.reg 0xC = b₀ ∧ v.image.reg 0xD = b₁ ∧ v.image.reg 0xE = b₂ ∧ v.image.reg 0xF = b₃

/-- R186: DFLT and then PACK, presented by their command words one after the other from any state, give exactly the
thirteen bytes printed. -/
def Obligations.DefaultFrame : Prop :=
  ∀ (s : State) r₁ r₂ rest, s.pending = r₁ :: r₂ :: rest → r₁.rst = false → r₂.rst = false → r₁.cmd = 0x0100 →
    r₂.cmd = 0x1100 →
    ∃ t : State, core.run 2 s = .next t ∧ t.out.st = 0 ∧ t.out.boutLen = 13 ∧
      t.out.bout = [0x80, 0x00, 0x03, 0xFF, 0x7F, 0xC0, 0x7F, 0xFF, 0x80, 0x00, 0x00, 0x00, 0x00]

/-- Spec/41_marshaller_ops.md section 3: after a LOAD that ended with `ST_OK`, RDB of every register returns the
byte of the buffer at the next position. -/
def Obligations.LoadThenReadByte : Prop :=
  ∀ s t u a, exec .load s = .next t → t.out.st = 0 → exec (.rdb a) t = .next u →
    ∃ b, s.port.bin[a.toNat + 1]? = some b ∧ u.out.rdata = b.setWidth 32

/-! ## The scaler -/

/-- R200: CALC gives the seven derived values and changes nothing. Six of them are the signed values of their
fields; the seventh is that of LTC shifted down by five; each temperature is the mantissa over `2^FRAC`, FRAC being
0, 0, 4, 4, 4, 8, 7; any selector but 0 is illegal. -/
def Obligations.CalcGivesTheMantissas : Prop :=
  encode .calcDv = 0x2000 ∧
  (∀ s, ∃ t, exec .calcDv s = .next t ∧
    t.out.dv.cjhf.toInt = signedValue 8 (s.image.reg 0x3).toNat ∧
    t.out.dv.cjlf.toInt = signedValue 8 (s.image.reg 0x4).toNat ∧
    t.out.dv.lthft.toInt = signedValue 16 ((s.image.reg 0x5).toNat * 256 + (s.image.reg 0x6).toNat) ∧
    t.out.dv.ltlft.toInt = signedValue 16 ((s.image.reg 0x7).toNat * 256 + (s.image.reg 0x8).toNat) ∧
    t.out.dv.cjto.toInt = signedValue 8 (s.image.reg 0x9).toNat ∧
    t.out.dv.cjt.toInt = signedValue 16 ((s.image.reg 0xA).toNat * 256 + (s.image.reg 0xB).toNat) ∧
    t.out.dv.ltct = (sext32 (s.image.reg 0xC ++ s.image.reg 0xD ++ s.image.reg 0xE)).sshiftRight 5 ∧
    celsius t.out.dv .cjhf = t.out.dv.cjhf.toInt ∧ celsius t.out.dv .cjlf = t.out.dv.cjlf.toInt ∧
    celsius t.out.dv .lthft = t.out.dv.lthft.toInt * (1 / 2 ^ 4 : Rat) ∧
    celsius t.out.dv .ltlft = t.out.dv.ltlft.toInt * (1 / 2 ^ 4 : Rat) ∧
    celsius t.out.dv .cjto = t.out.dv.cjto.toInt * (1 / 2 ^ 4 : Rat) ∧
    celsius t.out.dv .cjt = t.out.dv.cjt.toInt * (1 / 2 ^ 8 : Rat) ∧
    celsius t.out.dv .ltct = t.out.dv.ltct.toInt * (1 / 2 ^ 7 : Rat) ∧
    DerivedOk t.out ∧ t.image = s.image ∧ SameInputs s t) ∧
  ∀ sel : BitVec 8, sel ≠ 0 → RejectsWord (0x20#8 ++ sel)

/-- R207: LTCT is the raw 24-bit value with bits 31 to 24 set where bit 23 is, shifted right arithmetically by five:
the floor of a thirty-second of the signed raw value, which is bits 23 to 5 sign-extended, and the temperature is
that over 128. -/
def Obligations.LtctIsTheFloorOfRawOver32 : Prop :=
  ∀ s : State, ∃ t, exec .calcDv s = .next t ∧
    let raw : BitVec 24 := s.image.reg 0xC ++ s.image.reg 0xD ++ s.image.reg 0xE
    let x32 : BitVec 32 := if raw[23] then 0xFF000000#32 ||| raw.setWidth 32 else raw.setWidth 32
    t.out.dv.ltct = x32.sshiftRight 5 ∧
    t.out.dv.ltct.toInt = signedValue 24 raw.toNat / 32 ∧
    t.out.dv.ltct = (raw.extractLsb' 5 19).signExtend 32 ∧
    -262144 ≤ t.out.dv.ltct.toInt ∧ t.out.dv.ltct.toInt ≤ 262143 ∧
    celsius t.out.dv .ltct = t.out.dv.ltct.toInt * (1 / 128 : Rat) ∧
    -2048 ≤ celsius t.out.dv .ltct ∧ celsius t.out.dv .ltct ≤ (262143 / 128 : Rat)

/-- Spec/42_scaler_ops.md section 3, symmetry: where the five low bits of LTC are zero and the raw value is not the
most negative one, the image with the raw value negated has the negated temperature. -/
def Obligations.LtctIsSymmetric : Prop :=
  ∀ m m' : Image, scalarValue m .ltc % 32 = 0 → scalarValue m' .ltc = - scalarValue m .ltc →
    celsius (computeValues m') .ltct = - celsius (computeValues m) .ltct

/-- R201 to R206: the mantissa of each of the six unshifted derived values is its field's signed value, in the range
of its width, and the temperature is the mantissa times 1, 1, 0.0625, 0.0625, 0.0625 or 0.00390625 degrees, with the
printed ranges for CJTO and CJT. -/
def Obligations.TemperaturesAreExact : Prop :=
  ∀ s : State, ∃ t, exec .calcDv s = .next t ∧
    let d := t.out.dv
    (d.cjhf.toInt = scalarValue s.image .cjhf ∧ -128 ≤ d.cjhf.toInt ∧ d.cjhf.toInt ≤ 127 ∧
      celsius d .cjhf = d.cjhf.toInt) ∧
    (d.cjlf.toInt = scalarValue s.image .cjlf ∧ -128 ≤ d.cjlf.toInt ∧ d.cjlf.toInt ≤ 127 ∧
      celsius d .cjlf = d.cjlf.toInt) ∧
    (d.lthft.toInt = scalarValue s.image .lthft ∧ -32768 ≤ d.lthft.toInt ∧ d.lthft.toInt ≤ 32767 ∧
      celsius d .lthft = d.lthft.toInt * (625 / 10000 : Rat)) ∧
    (d.ltlft.toInt = scalarValue s.image .ltlft ∧ -32768 ≤ d.ltlft.toInt ∧ d.ltlft.toInt ≤ 32767 ∧
      celsius d .ltlft = d.ltlft.toInt * (625 / 10000 : Rat)) ∧
    (d.cjto.toInt = scalarValue s.image .cjto ∧ -128 ≤ d.cjto.toInt ∧ d.cjto.toInt ≤ 127 ∧
      celsius d .cjto = d.cjto.toInt * (625 / 10000 : Rat) ∧
      -8 ≤ celsius d .cjto ∧ celsius d .cjto ≤ (79375 / 10000 : Rat)) ∧
    (d.cjt.toInt = scalarValue s.image .cjt ∧ -32768 ≤ d.cjt.toInt ∧ d.cjt.toInt ≤ 32767 ∧
      celsius d .cjt = d.cjt.toInt * (390625 / 100000000 : Rat) ∧
      -128 ≤ celsius d .cjt ∧ celsius d .cjt ≤ (12799609375 / 100000000 : Rat))

/-! ## Laws of the whole command set -/

/-- R79: the eight read commands leave the image as it was, and any command issued twice in a row gives the same
results and the same image as once. -/
def Obligations.CommandsAreIdempotent : Prop :=
  ∀ i s t, exec i s = .next t →
    exec i t = .next t ∧
    (i ∉ [.dflt, .load] → (∀ a, i ≠ .wrb a) → (∀ f, i ≠ .wrf f) → (∀ x, i ≠ .wrs x) → t.image = s.image)

/-- Spec/10_state.md section 1, the command/register table, its "writes" column: a command changes no register but
those it may write, and never the ports. -/
def Obligations.CommandsWriteOnlyTheirRegisters : Prop :=
  ∀ i s t, exec i s = .next t → SameInputs s t ∧ ∀ a, a ∉ writes i → t.image.reg a = s.image.reg a

/-- Spec/10_state.md section 1, the command/register table, its "reads" column: a command's outputs, and what it
leaves in the registers it may write, depend on the registers it may read and on the ports alone. A rejected
command keeps those registers, so the clause on them is for `ST_OK`. -/
def Obligations.CommandsReadOnlyTheirRegisters : Prop :=
  ∀ i s s' t t', s.port = s'.port → Agree (reads i) s.image s'.image → exec i s = .next t →
    exec i s' = .next t' →
    t.out = t'.out ∧ (t.out.st = 0 → Agree (writes i) t.image t'.image)

/-- Spec/60_exceptions.md section 1: a decoded command ends with one of the statuses its row allows. -/
def Obligations.StatusesFollowTheMatrix : Prop :=
  ∀ i s t, exec i s = .next t → t.out.st ∈ (statuses i).map Status.code

/-- R231: a step that ends with an error status wrote no register, shows no result, saved nothing, and the next
command runs exactly as if the rejected one had never been presented. -/
def Obligations.RejectionLeavesNoTrace : Prop :=
  ∀ s t r rest, s.pending = r :: rest → step s = .next t → t.out.st ≠ 0 →
    t.image = s.image ∧ NoResult t.out ∧ t.port = r ∧ t.pending = rest ∧
    (rest ≠ [] → step t = step { s with pending := rest })

/-- Spec/40_register_image_ops.md section 3: after `WRF f` of a value that fits, `RDF f` returns it, and every other
field reads as before. -/
def Obligations.WriteThenReadField : Prop :=
  ∀ s t f, exec (.wrf f) s = .next t → t.out.st = 0 →
    (∃ u, exec (.rdf f) t = .next u ∧ u.out.rdata = s.port.wdata) ∧
    ∀ g, g ≠ f → readField t.image g = readField s.image g

/-- Spec/40_register_image_ops.md section 3: the named fields do not overlap, so writes to two different fields
commute. -/
def Obligations.FieldWritesCommute : Prop :=
  ∀ (m : Image) f g v w, f ≠ g → writeField (writeField m f v) g w = writeField (writeField m g w) f v

/-- Spec/10_state.md section 2, reserved bits: no WRF changes bit 7 of CR1 or bits 7 and 6 of MASK, and no RDF
sees them. -/
def Obligations.WrfKeepsReservedBits : Prop :=
  ∀ s t f, exec (.wrf f) s = .next t →
    (t.image.reg 0x1)[7] = (s.image.reg 0x1)[7] ∧ (t.image.reg 0x2)[7] = (s.image.reg 0x2)[7] ∧
    (t.image.reg 0x2)[6] = (s.image.reg 0x2)[6] ∧
    ∀ v₁ v₂ : Byte, v₁.setWidth 7 = (s.image.reg 0x1).setWidth 7 → v₂.setWidth 6 = (s.image.reg 0x2).setWidth 6 →
      readField ((s.image.setReg 0x1 v₁).setReg 0x2 v₂) f = readField s.image f

/-- R58, R57: there is no state but the image. Two machines with the same image, given the same transactions, take
the same step, whatever was on their ports before; so no status and no result is visible to a later command. -/
def Obligations.NoHiddenState : Prop :=
  ∀ s s' : State, s.image = s'.image → s.pending = s'.pending → s.pending ≠ [] → step s = step s'

/-- R271, R12: every run of the commands presented completes, one next state for each; the machine never stops. -/
def Obligations.EveryRunCompletes : Prop :=
  ∀ s : State, ∃ t : State, core.run s.pending.length s = .next t ∧ t.pending = []

/-- R81: the effect of a sequence of transactions is the composition of the effects of its parts. -/
def Obligations.SequencesCompose : Prop :=
  ∀ (s : State) (rs qs : List Request) (t : State), core.run rs.length { s with pending := rs } = .next t →
    core.run (rs.length + qs.length) { s with pending := rs ++ qs } =
      core.run qs.length { t with pending := qs }

/-- Spec/70_reset_and_hazards.md section 2, the read sequence: after RDRQ and the LOAD of any 17-byte response, CALC
gives the derived values of the sixteen bytes of the response, whatever the image was. -/
def Obligations.ReadSequenceReportsTheResponse : Prop :=
  ∀ (s : State) r₁ r₂ r₃ rest, s.pending = r₁ :: r₂ :: r₃ :: rest →
    r₁.rst = false → r₂.rst = false → r₃.rst = false → r₁.cmd = 0x1200 → r₂.cmd = 0x1000 → r₃.cmd = 0x2000 →
    r₂.bin.length = 17 →
    ∃ (t : State) (m : Image), core.run 3 s = .next t ∧ m.toList = r₂.bin.tail ∧ t.image = m ∧ t.out.dv = computeValues m ∧
      t.out.st = 0

/-- R183, over whole runs: what the host wrote into LTC and SR never reaches the wire. From two machines an observer
of the buffers cannot tell apart, a step gives two such machines. -/
def Obligations.ReadOnlyRegistersNeverReachTheWire : Prop :=
  ∀ s s' t t', WireEqual s s' → step s = .next t → step s' = .next t' → WireEqual t t'

/-- The invariant holds after reset. Of the input ports, whose values there are the model's choice (log entry 5), it
looks at the empty buffer. -/
def Obligations.ResetMeetsTheInvariant : Prop := StateInv State.reset

/-- The invariant is kept by every step: `bout_len` counts `bout`, a buffer is one of the two frames, a rejected
command shows no result, at most one kind of result is shown, every mantissa is in its range, and every buffer
presented fits `blen`. -/
def Obligations.EveryStepKeepsTheInvariant : Prop :=
  ∀ s t, StateInv s → step s = .next t → StateInv t
end

