-- ==== Sys2Proof/Config.lean ====
section
/-!
DEFINITION. What an implementation fixes and the spec leaves open. The only open parameter is the latency
(spec/00_scope.md R7, spec/70_reset_and_hazards.md R275, decision D22). The fixed parameters of R7 stand in
Sys2Proof/Machine/Params.lean.
-/

namespace Sys2Proof

/-- `LAT`, the latency of a command in clock cycles: OPEN in the spec (R7, R275). It is finite and does not
depend on data, hence a plain number; it has no body, so nothing can be proved of its value. No rule of the
spec and no definition of the model reads it (log entry 7, DESIGN CHOICE, safe). -/
opaque Config.LAT : Nat

end Sys2Proof
end

