-- ==== Sys2Proof/Laws/Bits.lean ====
section
/-!
SUPPORT. What the bit primitives of spec/00_scope.md R11 do, as integers: one lemma each.
-/

namespace Sys2Proof.Machine

open Sys2Proof.Safety

theorem zext32_toNat {w : Nat} (hw : w ≤ 32) (v : BitVec w) : (zext32 v).toNat = v.toNat := by
  simp only [zext32, BitVec.toNat_setWidth]
  exact Nat.mod_eq_of_lt (lt_of_lt_of_le v.isLt (Nat.pow_le_pow_right (by decide) hw))

theorem sext32_toInt {w : Nat} (hw : w ≤ 32) (v : BitVec w) : (sext32 v).toInt = v.toInt := by
  simp [sext32, BitVec.toInt_signExtend_of_le hw]

/-- The arithmetic right shift is a floor (spec/42_scaler_ops.md R209). -/
theorem asr_toInt (x : Word) (k : Nat) : (asr x k).toInt = x.toInt / 2 ^ k := by
  simp [asr, BitVec.toInt_sshiftRight, Int.shiftRight_eq_div_pow]

theorem append_toNat {n k : Nat} (x : BitVec n) (y : BitVec k) :
    (x ++ y).toNat = x.toNat * 2 ^ k + y.toNat := by
  rw [BitVec.toNat_append, Nat.shiftLeft_eq, Nat.mul_comm, Nat.two_pow_add_eq_or_of_lt y.isLt]

theorem toInt_eq_signedValue {w : Nat} (hw : 0 < w) (v : BitVec w) : v.toInt = signedValue w v.toNat := by
  rw [BitVec.toInt_eq_toNat_cond, signedValue]
  have : 2 ^ w = 2 * 2 ^ (w - 1) := by rw [← Nat.pow_succ']; congr; omega
  split_ifs <;> first | rfl | omega

theorem fitsUnsigned_iff {w : Nat} {v : Word} : fitsUnsigned w v = true ↔ v.toNat < 2 ^ w := by
  simp [fitsUnsigned]

theorem fitsSigned_iff {w : Nat} {v : Word} :
    fitsSigned w v = true ↔ -(2 ^ (w - 1) : Int) ≤ v.toInt ∧ v.toInt ≤ 2 ^ (w - 1) - 1 := by
  simp [fitsSigned]

/-- A word in the signed range of `w` bits is the sign extension of its low `w` bits. -/
theorem sext32_slice {w : Nat} (h0 : 0 < w) (hw : w ≤ 32) {v : Word} (h : fitsSigned w v = true) :
    sext32 (slice v 0 w) = v := by
  apply BitVec.eq_of_toInt_eq
  rw [sext32_toInt hw]
  rw [fitsSigned_iff] at h
  have cut : slice v 0 w = v.setWidth w := by
    apply BitVec.eq_of_getLsbD_eq
    intro i hi
    simp [slice, hi]
  obtain ⟨k, rfl⟩ : ∃ k, w = k + 1 := ⟨w - 1, by omega⟩
  have double : ((2 ^ (k + 1) : Nat) : Int) = 2 * 2 ^ k := by push_cast; rw [pow_succ]; ring
  have same : (v.toNat : Int).bmod (2 ^ (k + 1)) = v.toInt.bmod (2 ^ (k + 1)) := by
    rw [BitVec.toInt_eq_toNat_bmod, Int.bmod_bmod_of_dvd (Nat.pow_dvd_pow 2 hw)]
  rw [Nat.add_sub_cancel] at h
  rw [cut, BitVec.toInt_setWidth, same, Int.bmod_eq_of_le] <;> rw [double] <;> omega

end Sys2Proof.Machine
end

