-- ==== Sys2Proof/Laws/Decode.lean ====
section
/-!
SUPPORT. What the decoder accepts, format by format, and how a word falls into its two halves
(spec/30_encoding.md R101 to R107).
-/

namespace Sys2Proof

@[simp] theorem op_append (o s : BitVec 8) : Command.op (o ++ s) = o := by
  apply BitVec.eq_of_getLsbD_eq
  intro i hi
  refine (BitVec.getLsbD_extractLsb' ..).trans ?_
  rw [BitVec.getLsbD_append]
  simp [hi]

@[simp] theorem sel_append (o s : BitVec 8) : Command.sel (o ++ s) = s := by
  apply BitVec.eq_of_getLsbD_eq
  intro i hi
  refine (BitVec.getLsbD_extractLsb' ..).trans ?_
  rw [BitVec.getLsbD_append]
  simp [hi]

theorem append_op_sel (w : Command) : w.op ++ w.sel = w := by
  apply BitVec.eq_of_getLsbD_eq
  intro i hi
  rw [BitVec.getLsbD_append, Command.op, Command.sel, BitVec.getLsbD_extractLsb', BitVec.getLsbD_extractLsb']
  split_ifs with h
  · simp [h]
  · rw [show 8 + (i - 8) = i by omega]
    simp
    omega

theorem bitField_ofSel_iff (sel : BitVec 8) (f : BitField) : BitField.ofSel sel = some f ↔ f.sel = sel := by
  revert sel; cases f <;> decide

theorem scalar_ofSel_iff (sel : BitVec 8) (x : Scalar) : Scalar.ofSel sel = some x ↔ x.sel = sel := by
  revert sel; cases x <;> decide

theorem decodeN_ok {i j : Instr} {sel : BitVec 8} : decodeN i sel = .ok j ↔ j = i ∧ sel = 0 := by
  unfold decodeN
  split_ifs with h
  · simp [h, eq_comm (a := i)]
  · constructor
    · intro e; cases e
    · intro e; exact absurd e.2 h

theorem decodeA_ok {mk : RegAddr → Instr} {j : Instr} {sel : BitVec 8} :
    decodeA mk sel = .ok j ↔ ∃ a : RegAddr, j = mk a ∧ sel = a.setWidth 8 := by
  unfold decodeA
  split_ifs with h
  · constructor
    · intro e
      cases e
      exact ⟨_, rfl, by apply BitVec.eq_of_toNat_eq; simp; omega⟩
    · rintro ⟨a, rfl, rfl⟩
      congr 2
      apply BitVec.eq_of_toNat_eq
      simp
  · constructor
    · intro e; cases e
    · rintro ⟨a, -, rfl⟩
      have := a.isLt
      simp at h
      omega

theorem decodeF_ok {mk : BitField → Instr} {j : Instr} {sel : BitVec 8} :
    decodeF mk sel = .ok j ↔ ∃ f, j = mk f ∧ sel = f.sel := by
  unfold decodeF
  constructor
  · intro h
    split at h
    · next f hf => cases h; exact ⟨f, rfl, ((bitField_ofSel_iff _ _).1 hf).symm⟩
    · cases h
  · rintro ⟨f, rfl, rfl⟩
    rw [(bitField_ofSel_iff _ f).2 rfl]

theorem decodeS_ok {mk : Scalar → Instr} {j : Instr} {sel : BitVec 8} :
    decodeS mk sel = .ok j ↔ ∃ x, j = mk x ∧ sel = x.sel := by
  unfold decodeS
  constructor
  · intro h
    split at h
    · next x hx => cases h; exact ⟨x, rfl, ((scalar_ofSel_iff _ _).1 hx).symm⟩
    · cases h
  · rintro ⟨x, rfl, rfl⟩
    rw [(scalar_ofSel_iff _ x).2 rfl]

end Sys2Proof
end

