-- ==== Sys2Proof/Laws/Image.lean ====
section
/-!
SUPPORT. The laws of the register image: a read after a write to the same register gives the value written, a
write leaves every other register alone, and what the scalar and bitfield views read and write in terms of
registers. The image is total (every address holds a byte), so there is no canonical form to keep.
-/

namespace Sys2Proof.Machine

@[simp] theorem reg_setReg_self (m : Image) (a : RegAddr) (v : Byte) : (m.setReg a v).reg a = v := by
  simp [Image.setReg, Image.reg]

theorem reg_setReg_ne (m : Image) {a b : RegAddr} (v : Byte) (h : b ≠ a) : (m.setReg a v).reg b = m.reg b := by
  have : a.toNat ≠ b.toNat := fun e => h (BitVec.eq_of_toNat_eq e.symm)
  simp [Image.setReg, Image.reg, this]

theorem reg_setReg (m : Image) (a b : RegAddr) (v : Byte) :
    (m.setReg a v).reg b = if b = a then v else m.reg b := by
  split
  · next h => subst h; simp
  · next h => exact reg_setReg_ne m v h

/-- An image is its sixteen registers. -/
theorem Image.ext_reg {m m' : Image} (h : ∀ a, m.reg a = m'.reg a) : m = m' := by
  apply Vector.ext
  intro i hi
  have := h (BitVec.ofNat 4 i)
  have e : i % 16 = i := Nat.mod_eq_of_lt hi
  simpa [Image.reg, e] using this

/-- The image as a list, register by register. -/
theorem image_toList (m : Image) : m.toList =
    [m.reg 0x0, m.reg 0x1, m.reg 0x2, m.reg 0x3, m.reg 0x4, m.reg 0x5, m.reg 0x6, m.reg 0x7,
     m.reg 0x8, m.reg 0x9, m.reg 0xA, m.reg 0xB, m.reg 0xC, m.reg 0xD, m.reg 0xE, m.reg 0xF] := by
  apply List.ext_getElem
  · simp
  · intro i h _
    have hi : i < 16 := by simpa using h
    interval_cases i <;> simp [Image.reg]

theorem memRead_one (m : Image) (a : RegAddr) : m.memRead a 1 = m.reg a := by
  apply BitVec.eq_of_toNat_eq
  simp [Image.memRead]

theorem memRead_two (m : Image) (a : RegAddr) : m.memRead a 2 = m.reg a ++ m.reg (a + 1) := by
  apply BitVec.eq_of_toNat_eq
  simp [Image.memRead]

theorem memRead_three (m : Image) (a : RegAddr) :
    m.memRead a 3 = m.reg a ++ m.reg (a + 1) ++ m.reg (a + 1 + 1) := by
  have h : m.memRead a 3 = m.reg a ++ (m.reg (a + 1) ++ m.reg (a + 1 + 1)) := by simp [Image.memRead]
  rw [h, BitVec.append_assoc]
  rfl

theorem memWrite_one (m : Image) (a : RegAddr) (v : BitVec 8) : m.memWrite a 1 v = m.setReg a v := by
  simp [Image.memWrite]

theorem memWrite_two (m : Image) (a : RegAddr) (v : BitVec 16) :
    m.memWrite a 2 v = (m.setReg a (v.extractLsb' 8 8)).setReg (a + 1) (v.extractLsb' 0 8) := by
  have low : v.setWidth 8 = v.extractLsb' 0 8 := by ext i; simp
  simp [Image.memWrite, low]

theorem memWrite_three (m : Image) (a : RegAddr) (v : BitVec 24) :
    m.memWrite a 3 v = ((m.setReg a (v.extractLsb' 16 8)).setReg (a + 1) (v.extractLsb' 8 8)).setReg
      (a + 1 + 1) (v.extractLsb' 0 8) := by
  have low : v.setWidth 8 = v.extractLsb' 0 8 := by ext i; simp
  have mid : (v.setWidth 16).extractLsb' 8 8 = v.extractLsb' 8 8 := by ext i; simp; omega
  simp [Image.memWrite, low, mid]

end Sys2Proof.Machine
end

