-- ==== Sys2Proof/Laws/Marshaller.lean ====
section
/-!
SUPPORT. What the frames hold, byte by byte (spec/30_encoding.md R115 to R117).
-/

namespace Sys2Proof.Machine

open Sys2Proof.Safety

/-- A buffer is a read response exactly when it has 17 bytes. -/
theorem decodeBuffer_isSome {bin : List Byte} (h : bin.length = 17) : ∃ m, decodeBuffer bin = some m := by
  unfold decodeBuffer
  rw [dif_pos h]
  exact ⟨_, rfl⟩

theorem decodeBuffer_none {bin : List Byte} (h : bin.length ≠ 17) : decodeBuffer bin = none := by
  unfold decodeBuffer
  rw [dif_neg h]

/-- The image of a read response is the response without its first byte. -/
theorem decodeBuffer_toList {bin : List Byte} {m : Image} (h : decodeBuffer bin = some m) :
    bin.length = 17 ∧ m.toList = bin.tail := by
  unfold decodeBuffer at h
  split_ifs at h with hl
  cases h
  exact ⟨hl, by simp [Vector.toList]⟩

/-- Register `a` comes from position `a + 1` (spec/20_memory.md R72). -/
theorem decodeBuffer_reg {bin : List Byte} {m : Image} (h : decodeBuffer bin = some m) (a : RegAddr) :
    bin[a.toNat + 1]? = some (m.reg a) := by
  have ha : a.toNat < 16 := a.isLt
  have : m.toList[a.toNat]? = some (m.reg a) := by simp [Image.reg, ha]
  rw [← this, (decodeBuffer_toList h).2]
  simp

/-- The write frame, position by position. -/
theorem encodeBuffer_eq (m : Image) : encodeBuffer m =
    [0x80, m.reg 0x0, m.reg 0x1, m.reg 0x2, m.reg 0x3, m.reg 0x4, m.reg 0x5, m.reg 0x6, m.reg 0x7,
     m.reg 0x8, m.reg 0x9, m.reg 0xA, m.reg 0xB] := by
  rw [encodeBuffer, image_toList]
  rfl

/-- The write frame depends on the twelve writable registers alone. -/
theorem encodeBuffer_congr {m m' : Image} (h : Agree writableRegs m m') : encodeBuffer m = encodeBuffer m' := by
  rw [encodeBuffer_eq, encodeBuffer_eq]
  simp only [Agree, writableRegs, List.forall_mem_cons] at h
  simp only [h]

theorem readRequest_eq : readRequest = [0, 0, 0, 0, 0, 0, 0, 0, 0, 0, 0, 0, 0, 0, 0, 0, 0] := by decide

end Sys2Proof.Machine
end

