-- ==== Sys2Proof/Laws/Operands.lean ====
section
/-!
SUPPORT. What the scalar and bitfield views read and write, in terms of the registers (spec/30_encoding.md R106,
R107; spec/10_state.md R22, R23).
-/

namespace Sys2Proof.Machine

open Sys2Proof.Safety

theorem scalarWidth_eq (x : Scalar) : scalarWidth x = scalarBits x := by cases x <;> rfl

theorem scalarWidth_bounds (x : Scalar) : 0 < scalarWidth x ∧ scalarWidth x ≤ 32 := by cases x <;> decide

theorem fieldWidth_le (f : BitField) : (fieldLayout f).width ≤ 4 := by cases f <;> decide

/-- A scalar's pattern is its registers, high byte first. -/
theorem readScalar_toNat (m : Image) (x : Scalar) :
    (readScalar m x).toNat = bigEndian (scalarBytes m x) := by
  cases x
  all_goals
    simp only [scalarBytes, scalarRegs, List.map, bigEndian, List.length, readScalar, scalarLayout, scalarWidth]
  · rw [memRead_one]; simp
  · rw [memRead_one]; simp
  · rw [memRead_two]; exact (append_toNat _ _).trans (by simp)
  · rw [memRead_two]; exact (append_toNat _ _).trans (by simp)
  · rw [memRead_one]; simp
  · rw [memRead_two]; exact (append_toNat _ _).trans (by simp)
  · rw [memRead_three]; exact (append_toNat _ _).trans (by rw [append_toNat]; simp; omega)

/-- Two images that agree on a scalar's registers have the same scalar. -/
theorem readScalar_congr {m m' : Image} {x : Scalar} (h : Agree (scalarRegs x) m m') :
    readScalar m x = readScalar m' x := by
  apply BitVec.eq_of_toNat_eq
  rw [readScalar_toNat, readScalar_toNat, scalarBytes, scalarBytes, List.map_congr_left h]

/-- Writing a scalar leaves every register outside it alone. -/
theorem writeScalar_reg_ne (m : Image) (x : Scalar) (v : BitVec (scalarWidth x)) {b : RegAddr}
    (h : b ∉ scalarRegs x) : (writeScalar m x v).reg b = m.reg b := by
  cases x <;> simp [scalarRegs] at h <;>
    simp [writeScalar, scalarLayout, Image.memWrite, reg_setReg, h]

/-- Writing a scalar puts its pattern in its registers, high byte first. -/
theorem writeScalar_bytes (m : Image) (x : Scalar) (v : BitVec (scalarWidth x)) :
    bigEndian (scalarBytes (writeScalar m x v) x) = v.toNat := by
  cases x
  all_goals
    simp only [scalarBytes, scalarRegs, List.map, bigEndian, List.length, writeScalar, scalarLayout,
      scalarWidth] at v ⊢
  · rw [memWrite_one]; simp
  · rw [memWrite_one]; simp
  · rw [memWrite_two]; simp [reg_setReg]; have := v.isLt; simp at this; omega
  · rw [memWrite_two]; simp [reg_setReg]; have := v.isLt; simp at this; omega
  · rw [memWrite_one]; simp
  · rw [memWrite_two]; simp [reg_setReg]; have := v.isLt; simp at this; omega
  · rw [memWrite_three]; simp [reg_setReg]; have := v.isLt; simp at this; omega

/-- What a scalar's registers hold after a write does not depend on the image before it. -/
theorem writeScalar_agree (m m' : Image) (x : Scalar) (v : BitVec (scalarWidth x)) :
    Agree (scalarRegs x) (writeScalar m x v) (writeScalar m' x v) := by
  intro a ha
  cases x <;> simp [scalarRegs] at ha <;> rcases ha with rfl | rfl | rfl <;>
    simp [writeScalar, scalarLayout, Image.memWrite, reg_setReg]

@[simp] theorem readScalar_writeScalar (m : Image) (x : Scalar) (v : BitVec (scalarWidth x)) :
    readScalar (writeScalar m x v) x = v :=
  BitVec.eq_of_toNat_eq (by rw [readScalar_toNat, writeScalar_bytes])

@[simp] theorem writeScalar_writeScalar (m : Image) (x : Scalar) (v : BitVec (scalarWidth x)) :
    writeScalar (writeScalar m x v) x v = writeScalar m x v := by
  apply Image.ext_reg
  intro a
  by_cases ha : a ∈ scalarRegs x
  · exact writeScalar_agree _ _ x v a ha
  · rw [writeScalar_reg_ne _ _ _ ha]

theorem readField_toNat (m : Image) (f : BitField) : (readField m f).toNat =
    (m.reg (fieldLayout f).reg).toNat / 2 ^ (fieldLayout f).lsb % 2 ^ (fieldLayout f).width := by
  simp [readField, slice, Nat.shiftRight_eq_div_pow]

/-- Bit `k` of a bitfield is bit `lsb + k` of its register. -/
theorem readField_bit (m : Image) (f : BitField) (k : Nat) : (readField m f).getLsbD k =
    (decide (k < (fieldLayout f).width) && (m.reg (fieldLayout f).reg).getLsbD ((fieldLayout f).lsb + k)) := by
  simp [readField, slice]

theorem fieldMask_bit (f : BitField) {k : Nat} (hk : k < 8) :
    (fieldMask (fieldLayout f).lsb (fieldLayout f).width).getLsbD k =
      decide ((fieldLayout f).lsb ≤ k ∧ k < (fieldLayout f).lsb + (fieldLayout f).width) := by
  cases f <;> (interval_cases k <;> rfl)

/-- The merge takes the field's bits from the value and the others from the old byte. -/
theorem mergeField_bit (f : BitField) (old v : Byte) {k : Nat} (hk : k < 8) :
    (mergeField old (fieldLayout f).lsb (fieldLayout f).width v).getLsbD k =
      if (fieldLayout f).lsb ≤ k ∧ k < (fieldLayout f).lsb + (fieldLayout f).width then
        v.getLsbD (k - (fieldLayout f).lsb)
      else old.getLsbD k := by
  simp only [mergeField, BitVec.getLsbD_or, BitVec.getLsbD_and, BitVec.getLsbD_not, fieldMask_bit f hk, hk,
    BitVec.getLsbD_shiftLeft]
  split_ifs with h
  · simp [h]
  · simp only [h]; simp

theorem writeField_reg_ne (m : Image) (f : BitField) (v : Byte) {b : RegAddr} (h : b ≠ (fieldLayout f).reg) :
    (writeField m f v).reg b = m.reg b := reg_setReg_ne m _ h

theorem writeField_bit (m : Image) (f : BitField) (v : Byte) {k : Nat} (hk : k < 8) :
    ((writeField m f v).reg (fieldLayout f).reg).getLsbD k =
      if (fieldLayout f).lsb ≤ k ∧ k < (fieldLayout f).lsb + (fieldLayout f).width then
        v.getLsbD (k - (fieldLayout f).lsb)
      else (m.reg (fieldLayout f).reg).getLsbD k := by
  rw [writeField, reg_setReg_self, mergeField_bit f _ _ hk]

@[simp] theorem writeField_writeField (m : Image) (f : BitField) (v : Byte) :
    writeField (writeField m f v) f v = writeField m f v := by
  apply Image.ext_reg
  intro a
  by_cases ha : a = (fieldLayout f).reg
  · subst ha
    apply BitVec.eq_of_getLsbD_eq
    intro k hk
    rw [writeField_bit _ _ _ hk, writeField_bit _ _ _ hk]
    split_ifs <;> rfl
  · rw [writeField_reg_ne _ _ _ ha]

end Sys2Proof.Machine
end

