-- ==== Sys2Proof/Laws/PerInstr.lean ====
section
/-!
SUPPORT. Per command: the encoder writes a word the match/mask table of spec/30_encoding.md R103 allows, and the
command can be read back from the two halves of the word.
-/

namespace Sys2Proof.Laws.LegalWord

/-- The word of the command is well formed, and its halves are the command's `op` and `sel` (R101, R103). -/
def Statement (i : Instr) : Prop :=
  commandWellFormed (encode i) = true ∧ (encode i).op = i.op ∧ (encode i).sel = i.sel

theorem dflt : Statement .dflt := ⟨by decide, op_append _ _, sel_append _ _⟩
theorem rdb (a : RegAddr) : Statement (.rdb a) := ⟨by revert a; decide, op_append _ _, sel_append _ _⟩
theorem wrb (a : RegAddr) : Statement (.wrb a) := ⟨by revert a; decide, op_append _ _, sel_append _ _⟩
theorem rdf (f : BitField) : Statement (.rdf f) := ⟨by cases f <;> decide, op_append _ _, sel_append _ _⟩
theorem wrf (f : BitField) : Statement (.wrf f) := ⟨by cases f <;> decide, op_append _ _, sel_append _ _⟩
theorem rds (x : Scalar) : Statement (.rds x) := ⟨by cases x <;> decide, op_append _ _, sel_append _ _⟩
theorem wrs (x : Scalar) : Statement (.wrs x) := ⟨by cases x <;> decide, op_append _ _, sel_append _ _⟩
theorem dtyp : Statement .dtyp := ⟨by decide, op_append _ _, sel_append _ _⟩
theorem davg : Statement .davg := ⟨by decide, op_append _ _, sel_append _ _⟩
theorem load : Statement .load := ⟨by decide, op_append _ _, sel_append _ _⟩
theorem pack : Statement .pack := ⟨by decide, op_append _ _, sel_append _ _⟩
theorem rdrq : Statement .rdrq := ⟨by decide, op_append _ _, sel_append _ _⟩
theorem calcDv : Statement .calcDv := ⟨by decide, op_append _ _, sel_append _ _⟩

end Sys2Proof.Laws.LegalWord
end

