-- ==== Sys2Proof/Laws/State.lean ====
section
/-!
SUPPORT. One lemma per field per update of the state, and what each way of ending a command answers.
-/

namespace Sys2Proof.Machine

@[simp] theorem setOut_image (o : Outputs) (s : State) : (s.setOut o).image = s.image := rfl
@[simp] theorem setOut_port (o : Outputs) (s : State) : (s.setOut o).port = s.port := rfl
@[simp] theorem setOut_pending (o : Outputs) (s : State) : (s.setOut o).pending = s.pending := rfl
@[simp] theorem setOut_out (o : Outputs) (s : State) : (s.setOut o).out = o := rfl

@[simp] theorem setImage_image (m : Image) (s : State) : (s.setImage m).image = m := rfl
@[simp] theorem setImage_port (m : Image) (s : State) : (s.setImage m).port = s.port := rfl
@[simp] theorem setImage_pending (m : Image) (s : State) : (s.setImage m).pending = s.pending := rfl
@[simp] theorem setImage_out (m : Image) (s : State) : (s.setImage m).out = s.out := rfl

@[simp] theorem setPorts_image (r : Request) (l : List Request) (s : State) : (s.setPorts r l).image = s.image := rfl
@[simp] theorem setPorts_port (r : Request) (l : List Request) (s : State) : (s.setPorts r l).port = r := rfl
@[simp] theorem setPorts_pending (r : Request) (l : List Request) (s : State) : (s.setPorts r l).pending = l := rfl
@[simp] theorem setPorts_out (r : Request) (l : List Request) (s : State) : (s.setPorts r l).out = s.out := rfl

@[simp] theorem present_image (w : Command) (s : State) : (s.present w).image = s.image := rfl
@[simp] theorem present_port (w : Command) (s : State) : (s.present w).port = s.port := rfl
@[simp] theorem present_out (w : Command) (s : State) : (s.present w).out = s.out := rfl

/-- Updates of different fields forget one another, and the last update of a field wins. -/
@[simp] theorem setOut_setOut (o o' : Outputs) (s : State) : (s.setOut o).setOut o' = s.setOut o' := rfl
@[simp] theorem setImage_setImage (m m' : Image) (s : State) : (s.setImage m).setImage m' = s.setImage m' := rfl
@[simp] theorem setImage_setOut (m : Image) (o : Outputs) (s : State) :
    (s.setOut o).setImage m = (s.setImage m).setOut o := rfl

/-- Two states with the same fields are the same. -/
theorem State.ext_fields {s t : State} (hi : s.image = t.image) (hp : s.port = t.port)
    (hq : s.pending = t.pending) (ho : s.out = t.out) : s = t := by
  cases s; cases t; cases hi; cases hp; cases hq; cases ho; rfl

theorem answer_next {o : Outputs} {s t : State} (h : s.answer o = .next t) : t = s.setOut o := by
  simpa [State.answer] using h.symm

theorem store_next {m : Image} {s t : State} (h : s.store m = .next t) : t = (s.setImage m).setOut .plain := by
  simpa [State.store] using h.symm

theorem raise_next {e : Status} {s t : State} (h : s.raise e = .next t) : t = s.setOut (.rejected e) := by
  simpa [State.raise] using h.symm

/-- Taking the next transaction: there is none, or it is the first of those pending. -/
theorem accept_nil {s : State} (h : s.pending = []) : s.accept = none := by
  simp [State.accept, h]

theorem accept_cons {s : State} {r : Request} {l : List Request} (h : s.pending = r :: l) :
    s.accept = some (s.setPorts r l) := by
  simp [State.accept, h]

end Sys2Proof.Machine
end

