-- ==== Sys2Proof/Laws/Step.lean ====
section
/-!
SUPPORT. Said once: everything a command can do (`exec_cases`), everything a step can do (`step_cases`), that both
always answer, and what they depend on.
-/

namespace Sys2Proof.Machine

/-- A command answers with `ST_OK` and some result on an unchanged image, or replaces the image and answers with
nothing, or is rejected. -/
theorem exec_cases {i : Instr} {s t : State} (h : exec i s = .next t) :
    (∃ o, t = s.setOut o ∧ o.st = 0) ∨ (∃ m, t = (s.setImage m).setOut .plain) ∨
      (∃ e, t = s.setOut (.rejected e) ∧ e.code ≠ 0) := by
  cases i with
  | wrb a =>
    simp only [exec, execWrb] at h
    split at h
    · exact .inr (.inl ⟨_, store_next h⟩)
    · exact .inr (.inr ⟨_, raise_next h, by decide⟩)
  | wrf f =>
    simp only [exec, execWrf] at h
    split at h
    · exact .inr (.inl ⟨_, store_next h⟩)
    · exact .inr (.inr ⟨_, raise_next h, by decide⟩)
  | wrs x =>
    simp only [exec, execWrs] at h
    split at h
    · exact .inr (.inl ⟨_, store_next h⟩)
    · exact .inr (.inr ⟨_, raise_next h, by decide⟩)
  | load =>
    simp only [exec, execLoad] at h
    split at h
    · exact .inr (.inl ⟨_, store_next h⟩)
    · exact .inr (.inr ⟨_, raise_next h, by decide⟩)
  | dflt => exact .inr (.inl ⟨_, store_next h⟩)
  | _ => exact .inl ⟨_, answer_next h, rfl⟩

/-- Every command answers a next state. -/
theorem exec_next (i : Instr) (s : State) : ∃ t, exec i s = .next t := by
  cases i with
  | wrb a => simp only [exec, execWrb]; split <;> exact ⟨_, rfl⟩
  | wrf f => simp only [exec, execWrf]; split <;> exact ⟨_, rfl⟩
  | wrs x => simp only [exec, execWrs]; split <;> exact ⟨_, rfl⟩
  | load => simp only [exec, execLoad]; split <;> exact ⟨_, rfl⟩
  | _ => exact ⟨_, rfl⟩

/-- A command looks at no output of an earlier command. -/
theorem exec_setOut (i : Instr) (o : Outputs) (s : State) : exec i (s.setOut o) = exec i s := by
  cases i <;> rfl

/-- A command looks at nothing the host presents later, and leaves it as it is. -/
theorem exec_pending (i : Instr) {s t : State} (q : List Request) (h : exec i s = .next t) :
    exec i { s with pending := q } = .next { t with pending := q } := by
  revert h
  cases i with
  | wrb a => simp only [exec, execWrb]; split <;> intro h <;> cases h <;> rfl
  | wrf f => simp only [exec, execWrf]; split <;> intro h <;> cases h <;> rfl
  | wrs x => simp only [exec, execWrs]; split <;> intro h <;> cases h <;> rfl
  | load => simp only [exec, execLoad]; split <;> intro h <;> cases h <;> rfl
  | _ => intro h; cases h; rfl

/-- The step where a transaction is presented, in terms of that transaction. -/
theorem step_cons {s : State} {r : Request} {rest : List Request} (hp : s.pending = r :: rest) :
    step s =
      match r.rst, decode r.cmd with
      | true, _ => (s.setPorts r rest).resetBlock
      | false, .ok i => exec i (s.setPorts r rest)
      | false, .error e => (s.setPorts r rest).rejectWord e := by
  rw [step, accept_cons hp]
  rfl

/-- Nothing is presented and nothing changes; or the next transaction is a reset; or its word decodes and the
command is carried out; or its word is illegal and is rejected. -/
theorem step_cases {s t : State} (h : step s = .next t) :
    (s.pending = [] ∧ t = s) ∨ ∃ r rest, s.pending = r :: rest ∧
      ((r.rst = true ∧ t = ((s.setPorts r rest).setImage factoryDefault).setOut .plain) ∨
       (r.rst = false ∧ ∃ i, decode r.cmd = .ok i ∧ exec i (s.setPorts r rest) = .next t) ∨
       (r.rst = false ∧ ∃ e, decode r.cmd = .error e ∧ t = (s.setPorts r rest).setOut (.rejected .errCmd))) := by
  cases hp : s.pending with
  | nil =>
    rw [step, accept_nil hp] at h
    cases h
    exact .inl ⟨rfl, rfl⟩
  | cons r rest =>
    rw [step_cons hp] at h
    refine .inr ⟨r, rest, rfl, ?_⟩
    cases hr : r.rst with
    | true =>
      rw [hr] at h
      exact .inl ⟨rfl, store_next h⟩
    | false =>
      cases hd : decode r.cmd with
      | ok i =>
        rw [hr, hd] at h
        exact .inr (.inl ⟨rfl, i, rfl, h⟩)
      | error e =>
        rw [hr, hd] at h
        exact .inr (.inr ⟨rfl, e, rfl, raise_next h⟩)

/-- Every step answers a next state, and takes one transaction from those pending. -/
theorem step_next (s : State) : ∃ t, step s = .next t ∧ t.pending = s.pending.tail := by
  cases hp : s.pending with
  | nil => exact ⟨s, by rw [step, accept_nil hp]; rfl, hp⟩
  | cons r rest =>
    rw [step_cons hp]
    cases r.rst with
    | true => exact ⟨_, rfl, rfl⟩
    | false =>
      cases decode r.cmd with
      | ok i =>
        obtain ⟨t, ht⟩ := exec_next i (s.setPorts r rest)
        refine ⟨t, ht, ?_⟩
        rcases exec_cases ht with ⟨_, rfl, _⟩ | ⟨_, rfl⟩ | ⟨_, rfl, _⟩ <;> rfl
      | error e => exact ⟨_, rfl, rfl⟩

/-- One more step of a run. -/
theorem run_succ {s t : State} (k : Nat) (h : step s = .next t) : core.run (k + 1) s = core.run k t := by
  have e : core.step s = .next t := h
  simp [Host.Core.run, e]

end Sys2Proof.Machine
end

