-- ==== Sys2Proof/Tests/Slice0.lean ====
section
/-!
SUPPORT. The model's own tests. Expected values are those of spec/95_test_vectors.md (S, V and P numbers), of
spec/30_encoding.md, or hand calculation from the rule named. Below them stands, for every obligation with
hypotheses, a witness that meets them together.
-/

namespace Sys2Proof.Tests

open Sys2Proof Sys2Proof.Machine Sys2Proof.Safety

/-! ## Helpers -/

/-- The image of V2. -/
def mixed : Image :=
  #v[0x91, 0xF5, 0x2A, 0x80, 0x7F, 0x12, 0x34, 0xFE, 0xDC, 0x55, 0xAB, 0xCD, 0x11, 0x22, 0x33, 0x44]

/-- The default image with the three bytes of LTC replaced. -/
def ltcImage (h m l : Byte) : Image :=
  ((factoryDefault.setReg 0xC h).setReg 0xD m).setReg 0xE l

/-- One transaction. -/
def req (cmd : Command) (wdata : Word := 0) (bin : List Byte := []) : Request := ⟨false, cmd, wdata, bin⟩

/-- A state with the operands on its ports and the transactions to come. -/
def st (m : Image) (wdata : Word := 0) (bin : List Byte := []) (pending : List Request := []) : State :=
  ⟨m, req 0 wdata bin, pending, .plain⟩

/-- The next state, where there is one. -/
def nextOf (o : Host.Outcome State Fault Refusal) : Option State :=
  match o with
  | .next s => some s
  | .fault _ => none
  | .refused _ => none

/-- The status and the result word of a command. -/
def wordOf (i : Instr) (s : State) : Option (BitVec 2 × Word) :=
  (nextOf (exec i s)).map fun t => (t.out.st, t.out.rdata)

/-- The status and the image of a command. -/
def imageOf (i : Instr) (s : State) : Option (BitVec 2 × Image) :=
  (nextOf (exec i s)).map fun t => (t.out.st, t.image)

/-! ## Well-formedness: one ill-formed term for each check -/

/-- R111: an unknown `op` is refused (V40). -/
theorem test_illformed_op : [0x0000#16, 0x00FF, 0x0A00, 0x0F00, 0x1300, 0x1F00, 0x2100, 0xFF00, 0xFFFF].map
    (fun w => (commandWellFormed w, decode w)) = List.replicate 9 (false, .error .unknownOp) := by decide

/-- R112: format N with a selector is refused (V40). -/
theorem test_illformed_n : [0x0101#16, 0x0801, 0x0980, 0x1001, 0x1101, 0x1201, 0x2001].map
    (fun w => (commandWellFormed w, decode w)) = List.replicate 7 (false, .error .selNotZero) := by decide

/-- R112: format A above address 15 is refused (V40). -/
theorem test_illformed_a : [0x0210#16, 0x02FF, 0x0310].map
    (fun w => (commandWellFormed w, decode w)) = List.replicate 3 (false, .error .selNotRegister) := by decide

/-- R112: format F above selector 22 is refused (V40). -/
theorem test_illformed_f : [0x0417#16, 0x041F, 0x0420, 0x0517].map
    (fun w => (commandWellFormed w, decode w)) = List.replicate 4 (false, .error .selNotField) := by decide

/-- R112: format S above selector 6 is refused (V40). -/
theorem test_illformed_s : [0x0607#16, 0x0608, 0x0707, 0x07FF].map
    (fun w => (commandWellFormed w, decode w)) = List.replicate 4 (false, .error .selNotScalar) := by decide

/-- R100: `blen` counts to 255, so a buffer of 256 bytes is refused and one of 255 is not. -/
theorem test_illformed_buffer : bufferWellFormed (List.replicate 256 0) = false ∧
    bufferWellFormed (List.replicate 255 0) = true := by
  simp only [bufferWellFormed, List.length_replicate]; decide

/-! ## Decoding: words written out bit by bit, `op` then `sel` (R101, R103, R106, R107) -/

theorem test_decode_image_commands :
    decode 0b00000001_00000000 = .ok .dflt ∧ decode 0b00000010_00001110 = .ok (.rdb 0xE) ∧
    decode 0b00000011_00001100 = .ok (.wrb 0xC) ∧ decode 0b00000100_00000111 = .ok (.rdf .tctype) ∧
    decode 0b00000101_00010100 = .ok (.wrf .tclow) ∧ decode 0b00000110_00000101 = .ok (.rds .cjt) ∧
    decode 0b00000111_00000011 = .ok (.wrs .ltlft) ∧ decode 0b00001000_00000000 = .ok .dtyp ∧
    decode 0b00001001_00000000 = .ok .davg := by decide

theorem test_decode_marshaller_commands :
    decode 0b00010000_00000000 = .ok .load ∧ decode 0b00010001_00000000 = .ok .pack ∧
    decode 0b00010010_00000000 = .ok .rdrq := by decide

theorem test_decode_scaler_command : decode 0b00100000_00000000 = .ok .calcDv := by decide

/-- V41: the last legal selector of each format. -/
theorem test_decode_last_selectors :
    decode 0x020F = .ok (.rdb 0xF) ∧ decode 0x030F = .ok (.wrb 0xF) ∧ decode 0x0416 = .ok (.rdf .openFlag) ∧
    decode 0x0516 = .ok (.wrf .openFlag) ∧ decode 0x0606 = .ok (.rds .ltc) ∧
    decode 0x0706 = .ok (.wrs .ltc) := by decide

/-- The encoder, by the words of P1 and P2. -/
theorem test_encode : encode (.rdf .tclow) = 0x0414 ∧ encode (.wrf .mCjhigh) = 0x0509 ∧
    encode (.wrf .mOpen) = 0x050E ∧ encode (.wrs .cjto) = 0x0704 ∧ encode .calcDv = 0x2000 := by decide

/-- The form the opcode table is read in: sixteen bits, bits above `nbits` zero. -/
theorem test_decode_table_word : decodeTableWord 16 0x0408 = some (.rdf .avgsel) ∧
    decodeTableWord 16 0x0417 = none ∧ decodeTableWord 16 0x1100 = some .pack := by decide

/-- R122: lines of the printed listing, and the default values of their operands. -/
theorem test_assemble :
    assemble "WRB  0x03, 0x7F           ; 0x0303".toList = some (req 0x0303 0x7F) ∧
    assemble "WRS  LTHFT, -2            ; 0x0702".toList = some (req 0x0702 0xFFFFFFFE) ∧
    assemble "RDB LTC.M".toList = some (req 0x020D) ∧
    assemble "LOAD [0x00, 0x80, 255]".toList = some (req 0x1000 0 [0x00, 0x80, 0xFF]) := by decide

/-- R122 has no pseudo-instructions and no lower case; R112's illegal words can be written by number (P3). -/
theorem test_assemble_edges : assemble "NOP".toList = none ∧ assemble "pack".toList = none ∧
    assemble "RDF 23".toList = some (req 0x0417) ∧ assemble "WRF AVGSEL".toList = none := by decide

/-- R7: the parameters fit together. -/
theorem test_parameters : NWR + NRO = NREG ∧ WRLEN = 1 + NWR ∧ RDLEN = 1 + NREG ∧ WRADDR = 0x80 ∧
    RDADDR = 0x00 := by decide

/-! ## Register-image commands -/

/-- V1, S3. -/
theorem test_dflt : imageOf .dflt (st (Vector.replicate 16 0xAA)) = some (0, #v[0x00, 0x03, 0xFF, 0x7F, 0xC0, 0x7F,
    0xFF, 0x80, 0x00, 0x00, 0x00, 0x00, 0x00, 0x00, 0x00, 0x00]) := by decide

/-- V2: every register of the mixed image. -/
theorem test_rdb : allRegs.map (fun a => wordOf (.rdb a) (st mixed)) =
    [0x91, 0xF5, 0x2A, 0x80, 0x7F, 0x12, 0x34, 0xFE, 0xDC, 0x55, 0xAB, 0xCD, 0x11, 0x22, 0x33, 0x44].map
      (fun v => some (0, v)) := by decide

/-- P4 line 11: a read-only register is written in the image. -/
theorem test_wrb : imageOf (.wrb 0xC) (st factoryDefault 0xE7) = some (0, ltcImage 0xE7 0x00 0x00) := by decide

/-- P3 line 3: 0x100 does not fit a byte. -/
theorem test_wrb_range : imageOf (.wrb 0x3) (st factoryDefault 0x100) = some (2, factoryDefault) := by decide

/-- V3: every field of the mixed image. -/
theorem test_rdf : [BitField.cmode, .oneshot, .ocfault, .cjdis, .fltmode, .fltclr, .notch, .tctype, .avgsel, .mCjhigh,
      .mCjlow, .mTchigh, .mTclow, .mOvuv, .mOpen, .cjrange, .tcrange, .cjhigh, .cjlow, .tchigh, .tclow, .ovuv,
      .openFlag].map (fun f => wordOf (.rdf f) (st mixed)) =
    [1, 0, 1, 0, 0, 0, 1, 5, 7, 1, 0, 1, 0, 1, 0, 0, 1, 0, 0, 0, 1, 0, 0].map (fun v => some (0, v)) := by decide

/-- S9, V5: AVGSEL takes 7 and keeps the other bits of CR1. -/
theorem test_wrf : imageOf (.wrf .avgsel) (st factoryDefault 7) = some (0, factoryDefault.setReg 0x1 0x73) := by decide

/-- S10, and R144's corner: all 32 bits of `wdata` are compared. -/
theorem test_wrf_range : imageOf (.wrf .avgsel) (st factoryDefault 8) = some (2, factoryDefault) ∧
    imageOf (.wrf .notch) (st factoryDefault 0x100) = some (2, factoryDefault) := by decide

/-- V4: every scalar of the mixed image. -/
theorem test_rds : [Scalar.cjhf, .cjlf, .lthft, .ltlft, .cjto, .cjt, .ltc].map (fun x => wordOf (.rds x) (st mixed)) =
    [0xFFFFFF80, 0x0000007F, 0x00001234, 0xFFFFFEDC, 0x00000055, 0xFFFFABCD, 0x00112233].map
      (fun v => some (0, v)) := by decide

/-- V10, P4 line 5: high byte at the lower address. -/
theorem test_wrs : imageOf (.wrs .lthft) (st factoryDefault 0xFFFFFFFE) =
      some (0, (factoryDefault.setReg 0x5 0xFF).setReg 0x6 0xFE) ∧
    imageOf (.wrs .ltc) (st factoryDefault 0xFFFFFFDF) = some (0, ltcImage 0xFF 0xFF 0xDF) := by decide

/-- R146: 128 is out of CJHF's range, -128 is its lowest value; R109: 255 is out of it though its low byte fits. -/
theorem test_wrs_range : imageOf (.wrs .cjhf) (st factoryDefault 0x80) = some (2, factoryDefault) ∧
    imageOf (.wrs .cjhf) (st factoryDefault 0xFFFFFF80) = some (0, factoryDefault.setReg 0x3 0x80) ∧
    imageOf (.wrs .cjhf) (st factoryDefault 0xFF) = some (2, factoryDefault) := by decide

/-- S14: the categories and the sample counts of its table. -/
theorem test_dtyp : [0x00, 0x11, 0x22, 0x33, 0x44, 0x55, 0x66, 0x77, 0x08, 0x0B, 0x0C, 0x0F, 0xFF, 0x83].map
      (fun b => wordOf .dtyp (st (factoryDefault.setReg 0x1 b))) =
    [0, 1, 2, 3, 4, 5, 6, 7, 8, 8, 9, 9, 9, 3].map (fun v => some (0, v)) := by decide

theorem test_davg : [0x00, 0x11, 0x22, 0x33, 0x44, 0x55, 0x66, 0x77, 0x08, 0x0F, 0xFF, 0x83].map
      (fun b => wordOf .davg (st (factoryDefault.setReg 0x1 b))) =
    [1, 2, 4, 8, 16, 16, 16, 16, 1, 1, 16, 1].map (fun v => some (0, v)) := by decide

/-! ## Marshaller commands -/

/-- V21: byte 0 is ignored, byte `a + 1` is register `a`. -/
theorem test_load : imageOf .load (st factoryDefault 0 [0xFF, 0x91, 0xF5, 0x2A, 0x80, 0x7F, 0x12, 0x34, 0xFE, 0xDC,
    0x55, 0xAB, 0xCD, 0x11, 0x22, 0x33, 0x44]) = some (0, mixed) := by decide

/-- V20: every other length is rejected. -/
theorem test_load_length : [0, 1, 12, 13, 16, 18, 34].map
      (fun n => imageOf .load (st factoryDefault 0 (List.replicate n 0x55))) =
    List.replicate 7 (some (1, factoryDefault)) := by decide

/-- V24. -/
theorem test_pack : (nextOf (exec .pack (st mixed))).map (fun t => (t.out.bout, t.out.boutLen, t.image)) =
    some ([0x80, 0x91, 0xF5, 0x2A, 0x80, 0x7F, 0x12, 0x34, 0xFE, 0xDC, 0x55, 0xAB, 0xCD], 13, mixed) := by decide

/-- S15. -/
theorem test_rdrq : (nextOf (exec .rdrq (st mixed))).map (fun t => (t.out.bout, t.out.boutLen, t.image)) =
    some ([0, 0, 0, 0, 0, 0, 0, 0, 0, 0, 0, 0, 0, 0, 0, 0, 0], 17, mixed) := by decide

/-! ## The scaler -/

/-- V4: CALC on the mixed image. -/
theorem test_calc : (nextOf (exec .calcDv (st mixed))).map (·.out.dv) = some ⟨0xFFFFFF80, 0x0000007F, 0x00001234,
    0xFFFFFEDC, 0x00000055, 0xFFFFABCD, 0x00008911⟩ := by decide

/-- V30: the floor on negatives, the sign, and the arithmetic shift. -/
theorem test_calc_ltct : [ltcImage 0x00 0x00 0x1F, ltcImage 0x00 0x00 0x20, ltcImage 0x7F 0xFF 0xFF,
      ltcImage 0x80 0x00 0x00, ltcImage 0xE7 0x00 0x00, ltcImage 0xFF 0xFF 0xDF, ltcImage 0xFF 0xFF 0xFF].map
      (fun m => (computeValues m).ltct) =
    [0x00000000, 0x00000001, 0x0003FFFF, 0xFFFC0000, 0xFFFF3800, 0xFFFFFFFE, 0xFFFFFFFF] := by decide

/-- S5 as the spec corrects it (C1): 19 00 00 is 400 degrees. -/
theorem test_celsius : celsius (computeValues (ltcImage 0x19 0x00 0x00)) .ltct = 400 := by
  have h : (computeValues (ltcImage 0x19 0x00 0x00)).ltct.toInt = 51200 := by decide
  norm_num [celsius, mantissa, fracBits, h, Rat.mkRat_eq_div]

/-! ## The step -/

/-- P3: the status of each rejected line, and that its operands are not looked at (V42). -/
theorem test_step_rejections : [req 0x0508 8, req 0x0700 0x80, req 0x1000 0 (List.replicate 16 0), req 0x0000,
      req 0x0101, req 0x0517 5, req 0x0707 0x7FFFFFFF, req 0x1001 0 [0, 0, 0]].map
      (fun r => (nextOf (step (st factoryDefault 0 [] [r]))).map fun t => (t.out.st, t.image)) =
    [2, 2, 1, 3, 3, 3, 3, 3].map (fun c => some (c, factoryDefault)) := by decide

/-- V44: `rst` has priority over the write presented with it. -/
theorem test_step_reset : (nextOf (step (st mixed 0 [] [⟨true, 0x0300, 0xFF, []⟩]))).map (·.image) =
    some factoryDefault := by decide

/-- A presented word is run by the very next step, from reset: RDB of CR1 reads 3 (S3). -/
theorem test_with_fetch_word : (nextOf (step (State.reset.withFetchWord 16 0x0201))).map (·.out.rdata) = some 3 ∧
    (nextOf (step (State.reset.withFetchWord 16 0x1100))).map (·.out.boutLen) = some 13 := by decide

/-- The first word of every row of the opcode table steps to a next state from reset. -/
theorem test_every_row_steps : (commandTable.map fun r =>
    (nextOf (step (State.reset.withFetchWord 16 r.pattern.toNat))).isSome) = List.replicate 13 true := by decide

/-! ## Witnesses: concrete states and operands that meet the hypotheses of the obligations together -/

/-- BitfieldTable, RdfReturnsTheField, WrfMergesTheFieldOrRejects: the least and the greatest selector above 22. -/
theorem test_witness_field_selector : 22 < (23 : BitVec 8).toNat ∧ 22 < (255 : BitVec 8).toNat := by decide

/-- ScalarTable, RdsReturnsTheSignedScalar, WrsWritesTheScalarOrRejects. -/
theorem test_witness_scalar_selector : 6 < (7 : BitVec 8).toNat ∧ 6 < (255 : BitVec 8).toNat := by decide

/-- RdbReturnsTheByte, WrbWritesOneByteOrRejects. -/
theorem test_witness_register_selector : 15 < (16 : BitVec 8).toNat ∧ 15 < (255 : BitVec 8).toNat := by decide

/-- The seven statements about format N: the least and the greatest selector other than 0. -/
theorem test_witness_n_selector : (1 : BitVec 8) ≠ 0 ∧ (255 : BitVec 8) ≠ 0 := by decide

/-- IllegalWordsAreRejected: each of its five clauses, at the ends of its range. -/
theorem test_witness_illegal_number : IllegalNumber 0x0000 ∧ IllegalNumber 0x0A00 ∧ IllegalNumber 0xFFFF ∧
    IllegalNumber 0x0101 ∧ IllegalNumber 0x20FF ∧ IllegalNumber 0x0210 ∧ IllegalNumber 0x03FF ∧
    IllegalNumber 0x0417 ∧ IllegalNumber 0x05FF ∧ IllegalNumber 0x0607 ∧ IllegalNumber 0x07FF := by
  simp [IllegalNumber]

/-- IllegalNumber leaves out the last legal word of each format. -/
theorem test_witness_legal_number : ¬ IllegalNumber 0x0100 ∧ ¬ IllegalNumber 0x2000 ∧ ¬ IllegalNumber 0x020F ∧
    ¬ IllegalNumber 0x0516 ∧ ¬ IllegalNumber 0x0606 := by
  simp [IllegalNumber]

/-- RejectsWord, in every statement that uses it: the word presented first, `rst` not asserted. -/
theorem test_witness_rejects_word : (st mixed 0 [] [req 0x0417 5, req 0x0100]).pending = req 0x0417 5 :: [req 0x0100] ∧
    (req 0x0417 5).rst = false ∧ (req 0x0417 5).cmd = 0x0417 := by decide

/-- StepRunsTheDecodedCommand. -/
theorem test_witness_step : (st mixed 0 [] [req 0x0303 0x7F]).pending = req 0x0303 0x7F :: [] ∧
    (req 0x0303 0x7F).rst = false ∧ decode (req 0x0303 0x7F).cmd = .ok (.wrb 0x3) := by decide

/-- NothingPresentedNothingChanges. -/
theorem test_witness_idle : (st mixed).pending = [] := by decide

/-- ResetLoadsTheDefaults: V44's reset, with a write beside it. -/
theorem test_witness_reset : (st mixed 0 [] [⟨true, 0x0300, 0xFF, []⟩]).pending = [⟨true, 0x0300, 0xFF, []⟩] ∧
    (⟨true, 0x0300, 0xFF, []⟩ : Request).rst = true := by decide

/-- WrbWritesOneByteOrRejects: 255 is stored and 256 is rejected. -/
theorem test_witness_wrb : (st mixed 255).port.wdata.toNat ≤ 255 ∧ ¬ (st mixed 256).port.wdata.toNat ≤ 255 := by decide

/-- WrfMergesTheFieldOrRejects: the last accepted and the first rejected value for each width, 1 to 4. -/
theorem test_witness_wrf : [(BitField.cmode, 1), (.ocfault, 3), (.avgsel, 7), (.tctype, 15)].all
    (fun p => decide ((st mixed p.2).port.wdata.toNat < 2 ^ (fieldLayout p.1).width ∧
      ¬ (st mixed (p.2 + 1)).port.wdata.toNat < 2 ^ (fieldLayout p.1).width)) = true := by decide

/-- WrsWritesTheScalarOrRejects: the lowest and the highest value of each width are in range, their outer neighbours
are not. -/
theorem test_witness_wrs : [(Scalar.cjhf, -128, 127), (.lthft, -32768, 32767), (.ltc, -8388608, 8388607)].all
    (fun p => [(p.2.1, true), (p.2.2, true), (p.2.1 - 1, false), (p.2.2 + 1, false)].all fun q =>
      decide (-(2 ^ (scalarBits p.1 - 1)) ≤ (st mixed q.1).port.wdata.toInt ∧
        (st mixed q.1).port.wdata.toInt ≤ 2 ^ (scalarBits p.1 - 1) - 1) == q.2) = true := by decide

/-- DtypReturnsTheCategory: 7, 8, 11, 12 and 15, where its clauses meet. -/
theorem test_witness_dtyp : [0xF7, 0xF8, 0xFB, 0xFC, 0xFF].map
    (fun b => ((st (mixed.setReg 0x1 b)).image.reg 0x1).toNat % 16) = [7, 8, 11, 12, 15] := by decide

/-- DavgReturnsTheSampleCount: 0, 3, 4 and 7, where its clauses meet. -/
theorem test_witness_davg : [0x8F, 0xBF, 0xCF, 0xFF].map
    (fun b => ((st (mixed.setReg 0x1 b)).image.reg 0x1).toNat / 16 % 8) = [0, 3, 4, 7] := by decide

/-- LoadUnpacksOrRejects: 17 bytes, and its two neighbours. -/
theorem test_witness_load : (st mixed 0 (List.replicate 17 0x55)).port.blen = 17 ∧
    (st mixed 0 (List.replicate 16 0x55)).port.blen ≠ 17 ∧
    (st mixed 0 (List.replicate 18 0x55)).port.blen ≠ 17 := by decide

/-- V23's second image: the default one but for LTC and SR. -/
def otherReadOnly : Image := (ltcImage 0xE7 0x12 0x34).setReg 0xF 0xFF

/-- PackIgnoresTheReadOnlyRegisters: V23. -/
theorem test_witness_pack_ignores : Agree writableRegs (st factoryDefault).image (st otherReadOnly).image ∧
    (st factoryDefault).image ≠ (st otherReadOnly).image ∧
    (∃ t, exec .pack (st factoryDefault) = .next t) ∧ ∃ t, exec .pack (st otherReadOnly) = .next t :=
  ⟨by unfold Agree; decide, by decide, ⟨_, rfl⟩, ⟨_, rfl⟩⟩

/-- PackThenLoadRoundTrips: S2's instance, from another image. -/
theorem test_witness_round_trip : ∃ t u, exec .pack (st mixed) = .next t ∧
    u = st factoryDefault 0 (t.out.bout ++ [1, 2, 3, 4]) ∧ u.port.bin = t.out.bout ++ [1, 2, 3, 4] :=
  ⟨_, _, rfl, rfl, rfl⟩

/-- DefaultFrame: S1 from the mixed image, with a command still to come. -/
theorem test_witness_default_frame : (st mixed 0 [] [req 0x0100, req 0x1100, req 0x0000]).pending =
      req 0x0100 :: req 0x1100 :: [req 0x0000] ∧ (req 0x0100).rst = false ∧ (req 0x1100).rst = false ∧
    (req 0x0100).cmd = 0x0100 ∧ (req 0x1100).cmd = 0x1100 := by decide

/-- LoadThenReadByte: the last register, from a buffer of seventeen different bytes. -/
theorem test_witness_load_then_read : ∃ t u,
    exec .load (st factoryDefault 0 (0xFF :: mixed.toList)) = .next t ∧ t.out.st = 0 ∧
      exec (.rdb 0xF) t = .next u := ⟨_, _, rfl, by decide, rfl⟩

/-- LtctIsSymmetric: S5 and S6, and the two ends of the range it holds for. -/
theorem test_witness_symmetry : [(ltcImage 0x19 0x00 0x00, ltcImage 0xE7 0x00 0x00),
      (ltcImage 0x00 0x00 0x00, ltcImage 0x00 0x00 0x00), (ltcImage 0x7F 0xFF 0xE0, ltcImage 0x80 0x00 0x20)].all
    (fun p => decide (scalarValue p.1 .ltc % 32 = 0 ∧ scalarValue p.2 .ltc = - scalarValue p.1 .ltc)) = true := by
  decide

/-- CommandsAreIdempotent: a read, a write that is carried out, and a write that is rejected. -/
theorem test_witness_idempotent : (∃ t, exec .pack (st mixed) = .next t) ∧ .pack ∉ [Instr.dflt, .load] ∧
    (∃ t, exec (.wrf .tctype) (st mixed 2) = .next t ∧ t.image ≠ mixed) ∧
    ∃ t, exec (.wrs .cjhf) (st mixed 0x80) = .next t ∧ t.out.st = 2 :=
  ⟨⟨_, rfl⟩, by decide, ⟨_, rfl, by decide⟩, ⟨_, rfl, by decide⟩⟩

/-- CommandsWriteOnlyTheirRegisters, StatusesFollowTheMatrix: a write, and a register it may not write. -/
theorem test_witness_frame : (∃ t, exec (.wrs .ltc) (st mixed 0xFFFFFFFF) = .next t) ∧ 0xF ∉ writes (.wrs .ltc) :=
  ⟨⟨_, rfl⟩, by decide⟩

/-- CommandsReadOnlyTheirRegisters: images that differ outside what WRF reads, and a write that ends with `ST_OK`. -/
theorem test_witness_reads : (st mixed 2).port = (st (mixed.setReg 0x0 0xFF) 2).port ∧
    Agree (reads (.wrf .tctype)) (st mixed 2).image (st (mixed.setReg 0x0 0xFF) 2).image ∧
    (∃ t, exec (.wrf .tctype) (st mixed 2) = .next t ∧ t.out.st = 0) ∧
    ∃ t, exec (.wrf .tctype) (st (mixed.setReg 0x0 0xFF) 2) = .next t :=
  ⟨by decide, by unfold Agree; decide, ⟨_, rfl, by decide⟩, ⟨_, rfl⟩⟩

/-- RejectionLeavesNoTrace: V43, by each of the three error statuses, with a command still to come. -/
theorem test_witness_rejection :
    (∃ t, step (st mixed 0 [] [req 0x0508 8, req 0x0508 2]) = .next t ∧ t.out.st = 2) ∧
    (∃ t, step (st mixed 0 [] [req 0x1000 0 [0x55], req 0x0508 2]) = .next t ∧ t.out.st = 1) ∧
    (∃ t, step (st mixed 0 [] [req 0x0517 8, req 0x0508 2]) = .next t ∧ t.out.st = 3) ∧ [req 0x0508 2] ≠ [] :=
  ⟨⟨_, rfl, by decide⟩, ⟨_, rfl, by decide⟩, ⟨_, rfl, by decide⟩, by decide⟩

/-- WriteThenReadField, WrfKeepsReservedBits: a write that fits, another field, and other reserved bits. -/
theorem test_witness_write_field : (∃ t, exec (.wrf .avgsel) (st mixed 7) = .next t ∧ t.out.st = 0) ∧
    BitField.tctype ≠ .avgsel ∧ (0x75 : Byte).setWidth 7 = (mixed.reg 0x1).setWidth 7 ∧
    (0xEA : Byte).setWidth 6 = (mixed.reg 0x2).setWidth 6 := ⟨⟨_, rfl, by decide⟩, by decide⟩

/-- FieldWritesCommute: two neighbours of one register. -/
theorem test_witness_commute : BitField.tctype ≠ .avgsel ∧
    (fieldLayout .tctype).reg = (fieldLayout .avgsel).reg := by decide

/-- NoHiddenState: other ports and outputs, the same image and the same transactions. -/
theorem test_witness_no_hidden : (st mixed 0 [] [req 0x1100]).image = (st mixed 9 [7] [req 0x1100]).image ∧
    (st mixed 0 [] [req 0x1100]).pending = (st mixed 9 [7] [req 0x1100]).pending ∧
    (st mixed 0 [] [req 0x1100]).pending ≠ [] ∧
    (st mixed 0 [] [req 0x1100]).port ≠ (st mixed 9 [7] [req 0x1100]).port := by decide

/-- SequencesCompose: two transactions, then others. -/
theorem test_witness_compose : ∃ t : State,
    core.run [req 0x0100, req 0x0508 7].length { st mixed with pending := [req 0x0100, req 0x0508 7] } = .next t :=
  ⟨_, rfl⟩

/-- ReadSequenceReportsTheResponse: P1, from the mixed image. -/
theorem test_witness_read_sequence :
    (st mixed 0 [] [req 0x1200, req 0x1000 0 (0xFF :: mixed.toList), req 0x2000]).pending =
      req 0x1200 :: req 0x1000 0 (0xFF :: mixed.toList) :: req 0x2000 :: [] ∧
    (req 0x1200).rst = false ∧ (req 0x1000 0 (0xFF :: mixed.toList)).rst = false ∧ (req 0x2000).rst = false ∧
    (req 0x1200).cmd = 0x1200 ∧ (req 0x1000 0 (0xFF :: mixed.toList)).cmd = 0x1000 ∧
    (req 0x2000).cmd = 0x2000 ∧ (req 0x1000 0 (0xFF :: mixed.toList)).bin.length = 17 := by decide

/-- ReadOnlyRegistersNeverReachTheWire: V23's two images, PACK presented to both. -/
theorem test_witness_wire :
    WireEqual (st factoryDefault 0 [] [req 0x1100]) (st otherReadOnly 0 [] [req 0x1100]) ∧
    (∃ t, step (st factoryDefault 0 [] [req 0x1100]) = .next t) ∧
    ∃ t, step (st otherReadOnly 0 [] [req 0x1100]) = .next t :=
  ⟨by unfold WireEqual Agree; decide, ⟨_, rfl⟩, ⟨_, rfl⟩⟩

/-- EveryStepKeepsTheInvariant: a state that meets the invariant and a step of it that answers a frame. -/
theorem test_witness_invariant : StateInv (st mixed 0 [] [req 0x1100]) ∧
    ∃ t, step (st mixed 0 [] [req 0x1100]) = .next t ∧ t.out.bout ≠ [] :=
  ⟨by unfold StateInv OutputsWellFormed NoResult MantissaInRange; decide, ⟨_, rfl, by decide⟩⟩

end Sys2Proof.Tests
end

section
/-!
PROOFS. Spec/20_memory.md R79: a command issued twice in a row does what it does once, and a read writes nothing.
A command that leaves the image alone repeats because no command looks at the outputs (`exec_setOut`); a write
repeats because its operands are still on the ports and writing the same value again changes nothing.
-/

namespace Sys2Proof.Machine

@[simp] theorem setReg_setReg (m : Image) (a : RegAddr) (v w : Byte) :
    (m.setReg a v).setReg a w = m.setReg a w := Vector.set_set ..

/-! ### The write commands, one equation per outcome of the operand check -/

theorem exec_wrb_fits (a : RegAddr) {s : State} (h : fitsUnsigned 8 s.port.wdata = true) :
    exec (.wrb a) s = s.store (s.image.setReg a (slice s.port.wdata 0 8)) := if_pos h

theorem exec_wrb_not_fits (a : RegAddr) {s : State} (h : ¬ fitsUnsigned 8 s.port.wdata = true) :
    exec (.wrb a) s = s.raise .errRange := if_neg h

theorem exec_wrf_fits (f : BitField) {s : State} (h : fitsUnsigned (fieldLayout f).width s.port.wdata = true) :
    exec (.wrf f) s = s.store (writeField s.image f (slice s.port.wdata 0 8)) := if_pos h

theorem exec_wrf_not_fits (f : BitField) {s : State}
    (h : ¬ fitsUnsigned (fieldLayout f).width s.port.wdata = true) :
    exec (.wrf f) s = s.raise .errRange := if_neg h

theorem exec_wrs_fits (x : Scalar) {s : State} (h : fitsSigned (scalarWidth x) s.port.wdata = true) :
    exec (.wrs x) s = s.store (writeScalar s.image x (slice s.port.wdata 0 (scalarWidth x))) := if_pos h

theorem exec_wrs_not_fits (x : Scalar) {s : State} (h : ¬ fitsSigned (scalarWidth x) s.port.wdata = true) :
    exec (.wrs x) s = s.raise .errRange := if_neg h

theorem exec_load_some {s : State} {m : Image} (h : decodeBuffer s.port.bin = some m) :
    exec .load s = s.store m := by
  simp only [exec, execLoad, h]

theorem exec_load_none {s : State} (h : decodeBuffer s.port.bin = none) : exec .load s = s.raise .errLen := by
  simp only [exec, execLoad, h]

/-- A command that is none of DFLT, LOAD, WRB, WRF and WRS answers on the image as it is. -/
theorem exec_read_answers {i : Instr} (hn : i ∉ [.dflt, .load]) (hb : ∀ a, i ≠ .wrb a) (hf : ∀ f, i ≠ .wrf f)
    (hs : ∀ x, i ≠ .wrs x) (s : State) : ∃ o, exec i s = s.answer o := by
  cases i with
  | dflt => simp at hn
  | load => simp at hn
  | wrb a => exact absurd rfl (hb a)
  | wrf f => exact absurd rfl (hf f)
  | wrs x => exact absurd rfl (hs x)
  | _ => exact ⟨_, rfl⟩

/-! ### The same command again -/

/-- A command that changed the outputs alone finds everything it looks at as it was. -/
theorem exec_again_of_setOut {i : Instr} {s t : State} {o : Outputs} (h : exec i s = .next t)
    (ht : t = s.setOut o) : exec i t = .next t := by
  have hi : exec i t = exec i s := by rw [ht, exec_setOut]
  rw [hi, h]

/-- A command that stores an idempotent update of the image, whatever the image is, finds its update done. -/
theorem exec_again_of_store {i : Instr} {s t : State} {u : Image → Image} (hu : ∀ m, u (u m) = u m)
    (hi : ∀ m, exec i (s.setImage m) = (s.setImage m).store (u m)) (h : exec i s = .next t) :
    exec i t = .next t := by
  have ht : t = (s.setImage (u s.image)).setOut .plain := store_next ((hi s.image).symm.trans h)
  rw [ht, exec_setOut, hi, hu]
  rfl

/-- R79: a command issued again gives the same state, its outputs included. -/
theorem exec_again {i : Instr} {s t : State} (h : exec i s = .next t) : exec i t = .next t := by
  cases i with
  | dflt => exact exec_again_of_store (u := fun _ => factoryDefault) (fun _ => rfl) (fun _ => rfl) h
  | wrb a =>
    by_cases hv : fitsUnsigned 8 s.port.wdata = true
    · exact exec_again_of_store (fun m => setReg_setReg m a _ _) (fun m => exec_wrb_fits (s := s.setImage m) a hv) h
    · exact exec_again_of_setOut h (raise_next (exec_wrb_not_fits a hv ▸ h))
  | wrf f =>
    by_cases hv : fitsUnsigned (fieldLayout f).width s.port.wdata = true
    · exact exec_again_of_store (fun m => writeField_writeField m f _)
        (fun m => exec_wrf_fits (s := s.setImage m) f hv) h
    · exact exec_again_of_setOut h (raise_next (exec_wrf_not_fits f hv ▸ h))
  | wrs x =>
    by_cases hv : fitsSigned (scalarWidth x) s.port.wdata = true
    · exact exec_again_of_store (fun m => writeScalar_writeScalar m x _)
        (fun m => exec_wrs_fits (s := s.setImage m) x hv) h
    · exact exec_again_of_setOut h (raise_next (exec_wrs_not_fits x hv ▸ h))
  | load =>
    cases hb : decodeBuffer s.port.bin with
    | some m =>
      exact exec_again_of_store (u := fun _ => m) (fun _ => rfl)
        (fun n => exec_load_some (s := s.setImage n) hb) h
    | none => exact exec_again_of_setOut h (raise_next (exec_load_none hb ▸ h))
  | _ => exact exec_again_of_setOut h (answer_next h)

/-- Settles O32: every command repeats by `exec_again`, and a read answers on the image as it is. -/
theorem commandsAreIdempotent : Obligations.CommandsAreIdempotent := by
  intro i s t h
  refine ⟨exec_again h, fun hn hb hf hs => ?_⟩
  obtain ⟨o, ho⟩ := exec_read_answers hn hb hf hs s
  have ht : t = s.setOut o := answer_next (ho.symm.trans h)
  rw [ht, setOut_image]

end Sys2Proof.Machine
end

section
/-!
PROOFS. Spec/30_encoding.md R106, R107, R111 and R112: what the selectors name, and what the block does with a word
that names no command. A word is shown illegal to the decoder from the other side: a word that decodes is the
encoding of its command (`encode_of_decode`), and no encoding is a word the rules call illegal
(`not_illegalNumber_encode`).
-/

namespace Sys2Proof

open Sys2Proof.Machine Sys2Proof.Safety

/-! ### The selectors in range -/

theorem regAddr_sel_le (a : RegAddr) : (a.setWidth 8).toNat ≤ 15 := by
  have ha := a.isLt
  rw [BitVec.toNat_setWidth]
  omega

theorem bitField_sel_le (f : BitField) : f.sel.toNat ≤ 22 := by cases f <;> decide

theorem scalar_sel_le (x : Scalar) : x.sel.toNat ≤ 6 := by cases x <;> decide

theorem bitField_ofSel_none {sel : BitVec 8} (h : 22 < sel.toNat) : BitField.ofSel sel = none := by
  rw [Option.eq_none_iff_forall_ne_some]
  intro f hf
  have hle := bitField_sel_le f
  rw [(bitField_ofSel_iff sel f).1 hf] at hle
  omega

theorem scalar_ofSel_none {sel : BitVec 8} (h : 6 < sel.toNat) : Scalar.ofSel sel = none := by
  rw [Option.eq_none_iff_forall_ne_some]
  intro x hx
  have hle := scalar_sel_le x
  rw [(scalar_ofSel_iff sel x).1 hx] at hle
  omega

/-! ### The words that decode, and the illegal ones -/

theorem op_toNat (w : Command) : w.op.toNat = w.toNat / 256 := by
  have hw := w.isLt
  rw [Command.op, BitVec.extractLsb'_toNat, Nat.shiftRight_eq_div_pow]
  omega

theorem sel_toNat (w : Command) : w.sel.toNat = w.toNat % 256 := by
  simp [Command.sel]

theorem encode_eq_of_halves {w : Command} {i : Instr} (hop : w.op.toNat = i.op.toNat) (hsel : w.sel = i.sel) :
    encode i = w := by
  rw [encode, ← BitVec.eq_of_toNat_eq hop, ← hsel, append_op_sel]

/-- A word that decodes is the encoding of its command: each arm of the decoder fixes both halves of the word. -/
theorem encode_of_decode {w : Command} {i : Instr} (h : decode w = .ok i) : encode i = w := by
  unfold decode at h
  split at h
  case h_1 hop | h_8 hop | h_9 hop | h_10 hop | h_11 hop | h_12 hop | h_13 hop =>
    obtain ⟨rfl, hsel⟩ := decodeN_ok.1 h
    exact encode_eq_of_halves hop hsel
  case h_2 hop | h_3 hop =>
    obtain ⟨a, rfl, hsel⟩ := decodeA_ok.1 h
    exact encode_eq_of_halves hop hsel
  case h_4 hop | h_5 hop =>
    obtain ⟨f, rfl, hsel⟩ := decodeF_ok.1 h
    exact encode_eq_of_halves hop hsel
  case h_6 hop | h_7 hop =>
    obtain ⟨x, rfl, hsel⟩ := decodeS_ok.1 h
    exact encode_eq_of_halves hop hsel
  case h_14 => cases h

/-- The word of a command has a known `op` and, for that `op`, a selector in range. -/
theorem not_illegalNumber_encode (i : Instr) : ¬ IllegalNumber (encode i).toNat := by
  have hop : (encode i).toNat / 256 = i.op.toNat := by rw [← op_toNat, encode, op_append]
  have hsel : (encode i).toNat % 256 = i.sel.toNat := by rw [← sel_toNat, encode, sel_append]
  rw [IllegalNumber, hop, hsel]
  cases i with
  | rdb a | wrb a => simpa [Instr.op, Instr.sel] using regAddr_sel_le a
  | rdf f | wrf f => simpa [Instr.op, Instr.sel] using bitField_sel_le f
  | rds x | wrs x => simpa [Instr.op, Instr.sel] using scalar_sel_le x
  | _ => decide

theorem decode_of_illegalNumber {w : Command} (h : IllegalNumber w.toNat) : ∃ e, decode w = .error e := by
  cases hd : decode w with
  | ok i =>
    rw [← encode_of_decode hd] at h
    exact absurd h (not_illegalNumber_encode i)
  | error e => exact ⟨e, rfl⟩

end Sys2Proof

namespace Sys2Proof.Machine

/-- R233: the step of a transaction whose word is illegal rejects it and looks at none of its operands. -/
theorem step_of_decode_error {s : State} {r : Request} {rest : List Request} {e : IllegalWord}
    (hp : s.pending = r :: rest) (hr : r.rst = false) (he : decode r.cmd = .error e) :
    step s = .next ((s.setPorts r rest).setOut (.rejected .errCmd)) := by
  rw [step_cons hp, hr, he]
  rfl

/-- Settles O7: an illegal word does not decode, and a step whose word does not decode is a rejection. -/
theorem illegalWordsAreRejected : Obligations.IllegalWordsAreRejected := by
  intro w hw s r rest hp hr hcmd
  obtain ⟨e, he⟩ := decode_of_illegalNumber hw
  exact ⟨_, step_of_decode_error hp hr (hcmd ▸ he), rfl, rfl, ⟨rfl, rfl, rfl, rfl⟩, rfl, rfl⟩

/-- Settles O4: the 23 rows by evaluation, the selectors above them by `bitField_ofSel_none`, and the value of
a field by `readField_toNat`. -/
theorem bitfieldTable : Obligations.BitfieldTable :=
  ⟨by decide, fun _ => bitField_ofSel_none, readField_toNat⟩

/-- Settles O5: the seven rows by evaluation, their ranges by `fitsSigned_iff` at the three widths; the selectors
above them by `scalar_ofSel_none`, and the pattern of a scalar by `readScalar_toNat`. -/
theorem scalarTable : Obligations.ScalarTable := by
  refine ⟨?_, fun _ => scalar_ofSel_none, readScalar_toNat⟩
  simp only [List.forall_mem_cons, List.not_mem_nil, false_imp_iff, implies_true, and_true]
  refine ⟨?_, ?_, ?_, ?_, ?_, ?_, ?_⟩ <;> exact ⟨rfl, rfl, rfl, rfl, fun _ => fitsSigned_iff⟩

end Sys2Proof.Machine
end

section
/-!
PROOFS. Spec/40_register_image_ops.md R140 to R148: each register-image command from every state. A read answers a
word on the image as it is; a write either stores its update or, where the operand check fails, is rejected
(`checked_write`); the words beside the command's own are illegal by the selector rules of its format.
-/

namespace Sys2Proof

open Sys2Proof.Machine Sys2Proof.Safety

/-! ### The words of a command: its own, and those with a selector out of range -/

/-- R122: the word of a command is `(op << 8) | sel`. -/
theorem encode_eq_or (i : Instr) : encode i = i.op.setWidth 16 <<< 8 ||| i.sel.setWidth 16 := by
  rw [encode, BitVec.append_def, BitVec.shiftLeftZeroExtend_eq, BitVec.setWidth'_eq]

theorem append_toNat_div (op sel : BitVec 8) : (op ++ sel).toNat / 256 = op.toNat := by
  rw [← op_toNat, op_append]

theorem append_toNat_mod (op sel : BitVec 8) : (op ++ sel).toNat % 256 = sel.toNat := by
  rw [← sel_toNat, sel_append]

/-- R112, format N: any selector but 0 is illegal. -/
theorem rejectsWord_of_sel_ne_zero {op sel : BitVec 8}
    (hop : op.toNat ∈ [0x01, 0x08, 0x09, 0x10, 0x11, 0x12, 0x20]) (hsel : sel ≠ 0) : RejectsWord (op ++ sel) := by
  refine illegalWordsAreRejected _ (.inr (.inl ?_))
  rw [append_toNat_div, append_toNat_mod]
  exact ⟨hop, fun h => hsel (BitVec.eq_of_toNat_eq h)⟩

/-- R112, format A: a selector above 15 is illegal. -/
theorem rejectsWord_of_sel_gt_15 {op sel : BitVec 8} (hop : op.toNat ∈ [0x02, 0x03]) (hsel : 15 < sel.toNat) :
    RejectsWord (op ++ sel) := by
  refine illegalWordsAreRejected _ (.inr (.inr (.inl ?_)))
  rw [append_toNat_div, append_toNat_mod]
  exact ⟨hop, hsel⟩

/-- R112, format F: a selector above 22 is illegal. -/
theorem rejectsWord_of_sel_gt_22 {op sel : BitVec 8} (hop : op.toNat ∈ [0x04, 0x05]) (hsel : 22 < sel.toNat) :
    RejectsWord (op ++ sel) := by
  refine illegalWordsAreRejected _ (.inr (.inr (.inr (.inl ?_))))
  rw [append_toNat_div, append_toNat_mod]
  exact ⟨hop, hsel⟩

/-- R112, format S: a selector above 6 is illegal. -/
theorem rejectsWord_of_sel_gt_6 {op sel : BitVec 8} (hop : op.toNat ∈ [0x06, 0x07]) (hsel : 6 < sel.toNat) :
    RejectsWord (op ++ sel) := by
  refine illegalWordsAreRejected _ (.inr (.inr (.inr (.inr ?_))))
  rw [append_toNat_div, append_toNat_mod]
  exact ⟨hop, hsel⟩

end Sys2Proof

namespace Sys2Proof.Machine

open Sys2Proof.Safety

/-! ### Slices as numbers and as bits -/

theorem slice_toNat {n : Nat} (v : BitVec n) (lsb w : Nat) : (slice v lsb w).toNat = v.toNat / 2 ^ lsb % 2 ^ w := by
  rw [slice, BitVec.extractLsb'_toNat, Nat.shiftRight_eq_div_pow]

theorem slice_low_toNat {n : Nat} (v : BitVec n) (w : Nat) : (slice v 0 w).toNat = v.toNat % 2 ^ w := by
  rw [slice_toNat, pow_zero, Nat.div_one]

theorem slice_low_bit {n w k : Nat} (v : BitVec n) (hk : k < w) : (slice v 0 w).getLsbD k = v.getLsbD k := by
  simp [slice, hk]

/-! ### The ways a command ends -/

theorem wordOk_ofWord (v : Word) : WordOk (.ofWord v) := ⟨rfl, rfl, rfl, rfl⟩

theorem plainOk_plain : PlainOk .plain := ⟨rfl, rfl, rfl, rfl, rfl⟩

theorem sameInputs_setOut (s : State) (o : Outputs) : SameInputs s (s.setOut o) := ⟨rfl, rfl⟩

theorem sameInputs_store (s : State) (m : Image) (o : Outputs) : SameInputs s ((s.setImage m).setOut o) := ⟨rfl, rfl⟩

theorem rejected_setOut (e : Status) (s : State) : Rejected e.code s (s.setOut (.rejected e)) :=
  ⟨rfl, rfl, ⟨rfl, rfl, rfl, rfl⟩, sameInputs_setOut s _⟩

/-- A write with an operand check: where the operand is legal it stores its update, and what holds after the store
holds after the command; where it is not, the command is rejected with `ST_ERR_RANGE` (R149, R234). -/
theorem checked_write {i : Instr} {s : State} {m : Image} {fits legal : Prop} [Decidable legal] {After : State → Prop}
    (hlegal : fits ↔ legal) (hfits : fits → exec i s = s.store m)
    (hnot : ¬ fits → exec i s = s.raise .errRange) (hafter : legal → After ((s.setImage m).setOut .plain)) :
    ∃ t, exec i s = .next t ∧ if legal then After t else Rejected 2 s t := by
  by_cases h : legal
  · exact ⟨_, hfits (hlegal.2 h), by rw [if_pos h]; exact hafter h⟩
  · exact ⟨_, hnot (mt hlegal.1 h), by rw [if_neg h]; exact rejected_setOut .errRange s⟩

/-! ### Reset to the default, and raw bytes -/

theorem factoryDefault_toList : factoryDefault.toList = defaultBytes := by decide

/-- Settles O12: DFLT stores the default image, and the same command again is `exec_again`. -/
theorem dfltWritesTheDefaults : Obligations.DfltWritesTheDefaults := by
  refine ⟨by decide, fun s => ?_, fun sel => rejectsWord_of_sel_ne_zero (by decide)⟩
  have hdflt : exec .dflt s = .next ((s.setImage factoryDefault).setOut .plain) := rfl
  exact ⟨_, hdflt, factoryDefault_toList, plainOk_plain, sameInputs_store s _ _, exec_again hdflt⟩

/-- Settles O13: RDB answers the byte, whose zero-extension is the same number. -/
theorem rdbReturnsTheByte : Obligations.RdbReturnsTheByte := by
  refine ⟨fun s a => ⟨by revert a; decide, ?_⟩, fun sel => rejectsWord_of_sel_gt_15 (by decide)⟩
  exact ⟨s.setOut (.ofWord (zext32 (s.image.reg a))), rfl, zext32_toNat (by decide) _, wordOk_ofWord _, rfl,
    sameInputs_setOut s _⟩

/-- Settles O14: a `wdata` up to 255 is its own low byte, and WRB stores that byte in one register. -/
theorem wrbWritesOneByteOrRejects : Obligations.WrbWritesOneByteOrRejects := by
  refine ⟨fun s a => ⟨by revert a; decide, ?_⟩, fun sel => rejectsWord_of_sel_gt_15 (by decide)⟩
  have hlegal : fitsUnsigned 8 s.port.wdata = true ↔ s.port.wdata.toNat ≤ 255 :=
    fitsUnsigned_iff.trans Nat.lt_succ_iff
  refine checked_write hlegal (exec_wrb_fits a) (exec_wrb_not_fits a) fun h => ?_
  refine ⟨?_, fun b hb => reg_setReg_ne _ _ hb, plainOk_plain, sameInputs_store s _ _⟩
  rw [setOut_image, setImage_image, reg_setReg_self, slice_low_toNat]
  exact Nat.mod_eq_of_lt (Nat.lt_succ_of_le h)

/-! ### Bitfields -/

/-- Settles O15: RDF answers the field, whose value is `readField_toNat`. -/
theorem rdfReturnsTheField : Obligations.RdfReturnsTheField := by
  refine ⟨fun s f => ⟨encode_eq_or _, ?_⟩, fun sel => rejectsWord_of_sel_gt_22 (by decide)⟩
  have hwidth : (fieldLayout f).width ≤ 32 := (fieldWidth_le f).trans (by decide)
  exact ⟨s.setOut (.ofWord (zext32 (readField s.image f))), rfl,
    (zext32_toNat hwidth _).trans (readField_toNat _ f), wordOk_ofWord _, rfl, sameInputs_setOut s _⟩

/-- Settles O16: WRF stores the merge of `writeField_bit`, whose bits of the value are those of `wdata`. -/
theorem wrfMergesTheFieldOrRejects : Obligations.WrfMergesTheFieldOrRejects := by
  refine ⟨fun s f => ⟨encode_eq_or _, ?_⟩, fun sel => rejectsWord_of_sel_gt_22 (by decide)⟩
  refine checked_write fitsUnsigned_iff (exec_wrf_fits f) (exec_wrf_not_fits f) fun _ => ?_
  refine ⟨fun k hk => ?_, fun b hb => writeField_reg_ne _ f _ hb, plainOk_plain, sameInputs_store s _ _⟩
  rw [setOut_image, setImage_image, writeField_bit _ f _ hk, slice_low_bit _ ((Nat.sub_le ..).trans_lt hk)]

/-! ### Scalars -/

/-- Settles O17: sign extension keeps the signed value of the pattern, and the pattern is the scalar's bytes. -/
theorem rdsReturnsTheSignedScalar : Obligations.RdsReturnsTheSignedScalar := by
  refine ⟨fun s x => ⟨encode_eq_or _, ?_⟩, fun sel => rejectsWord_of_sel_gt_6 (by decide)⟩
  obtain ⟨hpos, hle⟩ := scalarWidth_bounds x
  refine ⟨s.setOut (.ofWord (sext32 (readScalar s.image x))), rfl, ?_, wordOk_ofWord _, rfl, sameInputs_setOut s _⟩
  calc (sext32 (readScalar s.image x)).toInt
      = (readScalar s.image x).toInt := sext32_toInt hle _
    _ = signedValue (scalarWidth x) (readScalar s.image x).toNat := toInt_eq_signedValue hpos _
    _ = signedValue (scalarBits x) (bigEndian (scalarBytes s.image x)) := by
      rw [readScalar_toNat, scalarWidth_eq]

/-- Settles O18: WRS stores the low bits of `wdata` as the scalar's pattern, and a value in range is the sign
extension of those bits (`sext32_slice`), so RDS gives it back. -/
theorem wrsWritesTheScalarOrRejects : Obligations.WrsWritesTheScalarOrRejects := by
  refine ⟨fun s x => ⟨encode_eq_or _, ?_⟩, fun sel => rejectsWord_of_sel_gt_6 (by decide)⟩
  obtain ⟨hpos, hle⟩ := scalarWidth_bounds x
  rw [← scalarWidth_eq]
  refine checked_write fitsSigned_iff (exec_wrs_fits x) (exec_wrs_not_fits x) fun h => ?_
  refine ⟨?_, fun b hb => writeScalar_reg_ne _ x _ hb, plainOk_plain, sameInputs_store s _ _, _, rfl, ?_⟩
  · rw [setOut_image, setImage_image, writeScalar_bytes, slice_low_toNat]
  · calc sext32 (readScalar (writeScalar s.image x (slice s.port.wdata 0 (scalarWidth x))) x)
        = sext32 (slice s.port.wdata 0 (scalarWidth x)) := by rw [readScalar_writeScalar]
      _ = s.port.wdata := sext32_slice hpos hle (fitsSigned_iff.2 h)

/-! ### Decoded selectors -/

/-- R28: the code of a category, by the selector value. -/
theorem tcCategoryCode_toNat : ∀ t : BitVec 4, (tcCategoryCode (tcCategory t)).toNat =
    if t.toNat ≤ 7 then t.toNat else if t.toNat ≤ 11 then 8 else 9 := by decide

/-- R29: the sample count doubles up to selector value 3 and is 16 from 4 on. -/
theorem sampleCount_toNat : ∀ a : BitVec 3, (BitVec.ofNat 32 (sampleCount a)).toNat =
    if a.toNat ≤ 3 then 2 ^ a.toNat else 16 := by decide

/-- Settles O19: DTYP answers the code of the low four bits of `R[1]`. -/
theorem dtypReturnsTheCategory : Obligations.DtypReturnsTheCategory := by
  refine ⟨by decide, fun s => ?_, fun sel => rejectsWord_of_sel_ne_zero (by decide)⟩
  refine ⟨_, rfl, ?_, wordOk_ofWord _, rfl, sameInputs_setOut s _⟩
  have hsel : (slice (s.image.reg 0x1) 0 4).toNat = (s.image.reg 0x1).toNat % 16 := slice_low_toNat _ 4
  rw [← hsel]
  exact tcCategoryCode_toNat _

/-- Settles O20: DAVG answers the count of bits 6 to 4 of `R[1]`. -/
theorem davgReturnsTheSampleCount : Obligations.DavgReturnsTheSampleCount := by
  refine ⟨by decide, fun s => ?_, fun sel => rejectsWord_of_sel_ne_zero (by decide)⟩
  refine ⟨_, rfl, ?_, wordOk_ofWord _, rfl, sameInputs_setOut s _⟩
  have hsel : (slice (s.image.reg 0x1) 4 3).toNat = (s.image.reg 0x1).toNat / 16 % 8 := slice_toNat _ 4 3
  rw [← hsel]
  exact sampleCount_toNat _

end Sys2Proof.Machine
end

section
/-!
PROOFS. Spec/41_marshaller_ops.md R181 to R186: LOAD, PACK and RDRQ from every state. LOAD stores the image of a
17-byte buffer or is rejected; PACK and RDRQ answer a frame on the image as it is, so what they give is what the
laws of the frames say (`encodeBuffer_eq`, `readRequest_eq`).
-/

namespace Sys2Proof.Machine

open Sys2Proof.Safety

theorem exec_pack (s : State) : exec .pack s = .next (s.setOut (.ofFrame (encodeBuffer s.image))) := rfl

theorem exec_rdrq (s : State) : exec .rdrq s = .next (s.setOut (.ofFrame readRequest)) := rfl

theorem frameOk_ofFrame (bytes : List Byte) : FrameOk (.ofFrame bytes) := ⟨rfl, rfl, rfl⟩

theorem ofFrame_boutLen {bytes : List Byte} {n : Nat} (h : bytes.length = n) :
    (Outputs.ofFrame bytes).boutLen = BitVec.ofNat 8 n := h ▸ rfl

theorem encodeBuffer_length (m : Image) : (encodeBuffer m).length = 13 := by
  rw [encodeBuffer_eq]
  rfl

theorem readRequest_length : readRequest.length = 17 := by
  rw [readRequest_eq]
  rfl

/-- R101: the step of a transaction whose word decodes carries out its command. -/
theorem step_of_decode_ok {s : State} {r : Request} {rest : List Request} {i : Instr}
    (hp : s.pending = r :: rest) (hr : r.rst = false) (hi : decode r.cmd = .ok i) :
    step s = exec i (s.setPorts r rest) := by
  rw [step_cons hp, hr, hi]

/-- R186: the write frame of the factory default. -/
theorem encodeBuffer_factoryDefault : encodeBuffer factoryDefault =
    [0x80, 0x00, 0x03, 0xFF, 0x7F, 0xC0, 0x7F, 0xFF, 0x80, 0x00, 0x00, 0x00, 0x00] := by decide

/-- Settles O21: a 17-byte buffer decodes to an image, which LOAD stores (`decodeBuffer_reg` says where its registers
come from); no other buffer decodes, and LOAD is then rejected. -/
theorem loadUnpacksOrRejects : Obligations.LoadUnpacksOrRejects := by
  refine ⟨by decide, fun s => ?_, fun sel => rejectsWord_of_sel_ne_zero (by decide)⟩
  by_cases hlen : s.port.blen = 17
  · obtain ⟨m, hm⟩ := decodeBuffer_isSome hlen
    have hload : exec .load s = .next ((s.setImage m).setOut .plain) := exec_load_some hm
    refine ⟨_, hload, ?_⟩
    rw [if_pos hlen]
    exact ⟨decodeBuffer_reg hm, plainOk_plain, sameInputs_store s _ _, exec_again hload⟩
  · refine ⟨_, exec_load_none (decodeBuffer_none hlen), ?_⟩
    rw [if_neg hlen]
    exact rejected_setOut .errLen s

/-- Settles O22: PACK answers the write frame, position by position `encodeBuffer_eq`; the second PACK is
`exec_again`. -/
theorem packGivesTheWriteFrame : Obligations.PackGivesTheWriteFrame := by
  refine ⟨by decide, fun s => ?_, fun sel => rejectsWord_of_sel_ne_zero (by decide)⟩
  exact ⟨_, exec_pack s, encodeBuffer_eq s.image, ofFrame_boutLen (encodeBuffer_length s.image), frameOk_ofFrame _,
    rfl, sameInputs_setOut s _, exec_again (exec_pack s)⟩

/-- Settles O23: RDRQ answers the constant frame `readRequest`. -/
theorem rdrqGivesTheReadRequest : Obligations.RdrqGivesTheReadRequest := by
  refine ⟨by decide, fun s => ?_, fun sel => rejectsWord_of_sel_ne_zero (by decide)⟩
  exact ⟨_, exec_rdrq s, readRequest_eq, ofFrame_boutLen readRequest_length, frameOk_ofFrame _, rfl,
    sameInputs_setOut s _⟩

/-- Settles O24: the outputs of PACK are those of its frame, and `encodeBuffer_congr` gives one frame for both
images. -/
theorem packIgnoresTheReadOnlyRegisters : Obligations.PackIgnoresTheReadOnlyRegisters := by
  intro s s' t t' hagree ht ht'
  rw [answer_next ht, answer_next ht', setOut_out, setOut_out, encodeBuffer_congr hagree]

/-- Settles O26: the first step stores the default image, the second answers its frame. -/
theorem defaultFrame : Obligations.DefaultFrame := by
  intro s r₁ r₂ rest hp hr₁ hr₂ hdflt hpack
  have hd₁ : decode r₁.cmd = .ok .dflt := by rw [hdflt]; decide
  have hd₂ : decode r₂.cmd = .ok .pack := by rw [hpack]; decide
  obtain ⟨t, h₁, himage, hpending⟩ :
      ∃ t, step s = .next t ∧ t.image = factoryDefault ∧ t.pending = r₂ :: rest :=
    ⟨_, step_of_decode_ok hp hr₁ hd₁, rfl, rfl⟩
  have h₂ : step t = .next ((t.setPorts r₂ rest).setOut (.ofFrame (encodeBuffer t.image))) :=
    step_of_decode_ok hpending hr₂ hd₂
  rw [himage] at h₂
  exact ⟨_, (run_succ 1 h₁).trans (run_succ 0 h₂), rfl, ofFrame_boutLen (encodeBuffer_length _),
    encodeBuffer_factoryDefault⟩

end Sys2Proof.Machine
end

section
/-!
PROOFS. Spec/42_scaler_ops.md R200 to R207: CALC from every state. Six mantissas are the signed values of their
scalars (`mantissa_eq_scalarValue`). The seventh is LTC shifted down, which is a floor (`asr_toInt`) and the sign
extension of the bits that stay (`asr_sext32`). The ranges of the mantissas are those of their widths
(`mantissaInRange_computeValues`), and a temperature is in the range of its mantissa, scaled.
-/

namespace Sys2Proof.Machine

open Sys2Proof.Safety

/-! ### Sign extension and the arithmetic shift -/

theorem sext32_toInt_eq_signedValue {w : Nat} (h0 : 0 < w) (hw : w ≤ 32) (v : BitVec w) :
    (sext32 v).toInt = signedValue w v.toNat :=
  (sext32_toInt hw v).trans (toInt_eq_signedValue h0 v)

theorem sext32_byte_toInt (b : Byte) : (sext32 b).toInt = signedValue 8 b.toNat :=
  sext32_toInt_eq_signedValue (by decide) (by decide) b

theorem sext32_append_toInt (hi lo : Byte) :
    (sext32 (hi ++ lo)).toInt = signedValue 16 (hi.toNat * 256 + lo.toNat) :=
  (sext32_toInt_eq_signedValue (by decide) (by decide) _).trans (congrArg (signedValue 16) (append_toNat hi lo))

theorem sext32_toInt_bounds {w : Nat} (hw : w ≤ 32) (v : BitVec w) :
    -2 ^ (w - 1) ≤ (sext32 v).toInt ∧ (sext32 v).toInt ≤ 2 ^ (w - 1) - 1 := by
  rw [sext32_toInt hw]
  exact ⟨BitVec.le_toInt v, Int.le_sub_one_of_lt BitVec.toInt_lt⟩

/-- R207: the sign extension of a 24-bit pattern sets bits 31 to 24 where bit 23 is set. -/
theorem sext32_eq_fill (raw : BitVec 24) :
    sext32 raw = if raw[23] then 0xFF000000#32 ||| raw.setWidth 32 else raw.setWidth 32 := by
  have hsign : raw[23] = raw.msb := by rw [BitVec.msb_eq_getLsbD_last]; rfl
  rw [hsign]
  split
  case isFalse h => exact BitVec.signExtend_eq_setWidth_of_msb_false (Bool.eq_false_of_not_eq_true h)
  case isTrue h =>
    have hfill : 0xFF000000#32 ||| raw.setWidth 32 = 0xFF#8 ++ raw := by
      rw [BitVec.append_def, BitVec.setWidth'_eq]
      rfl
    have hraw : raw.toNat < 2 ^ 24 := raw.isLt
    apply BitVec.eq_of_toNat_eq
    rw [hfill, append_toNat, sext32, BitVec.toNat_signExtend, if_pos h, BitVec.toNat_setWidth]
    simp
    omega

/-- Shifting a sign extension down is dropping the low bits before the extension. -/
theorem asr_sext32 {w k : Nat} (hk : k < w) (hw : w ≤ 32) (v : BitVec w) :
    asr (sext32 v) k = sext32 (v.extractLsb' k (w - k)) := by
  have hmsb : (v.extractLsb' k (w - k)).msb = v.msb := by
    rw [BitVec.msb_eq_getLsbD_last, BitVec.msb_eq_getLsbD_last, BitVec.getLsbD_extractLsb',
      show k + (w - k - 1) = w - 1 by omega, decide_eq_true (by omega), Bool.true_and]
  have hsext : (sext32 v).msb = v.msb := by
    rw [BitVec.msb_eq_toInt, BitVec.msb_eq_toInt, sext32_toInt hw]
  apply BitVec.eq_of_getLsbD_eq
  intro i hi
  rw [asr, BitVec.getLsbD_sshiftRight, hsext, sext32, sext32, BitVec.getLsbD_signExtend, BitVec.getLsbD_signExtend,
    BitVec.getLsbD_extractLsb', hmsb]
  by_cases hkept : i < w - k
  · simp [hkept, hi, show k + i < 32 by omega, show k + i < w by omega]
  · have htop : ¬ k + i < w := by omega
    split_ifs with h <;> simp [hi, h]

/-! ### The mantissas -/

theorem sext32_readScalar_toInt (m : Image) (x : Scalar) : (sext32 (readScalar m x)).toInt = scalarValue m x := by
  obtain ⟨hpos, hle⟩ := scalarWidth_bounds x
  rw [sext32_toInt_eq_signedValue hpos hle, readScalar_toNat, scalarWidth_eq, scalarValue]

/-- The scalar a derived value is computed from (R119). -/
def sourceScalar : DerivedName → Scalar
  | .cjhf => .cjhf | .cjlf => .cjlf | .lthft => .lthft | .ltlft => .ltlft | .cjto => .cjto | .cjt => .cjt
  | .ltct => .ltc

/-- R201 to R206: a derived value that is not shifted is the signed value of its scalar. -/
theorem mantissa_eq_scalarValue (m : Image) {n : DerivedName} (hn : n ≠ .ltct) :
    mantissa (computeValues m) n = scalarValue m (sourceScalar n) := by
  rw [← sext32_readScalar_toInt]
  cases n with
  | cjhf | cjlf | cjto => exact congrArg (fun v => (sext32 v).toInt) (memRead_one ..).symm
  | lthft | ltlft | cjt => exact congrArg (fun v => (sext32 v).toInt) (memRead_two ..).symm
  | ltct => exact absurd rfl hn

/-- R207: LTCT is `raw24[23:5]` sign-extended. -/
theorem computeValues_ltct (m : Image) :
    (computeValues m).ltct = sext32 ((m.reg 0xC ++ m.reg 0xD ++ m.reg 0xE).extractLsb' 5 19) :=
  asr_sext32 (by decide) (by decide) _

/-- R119: every mantissa is in the range of its width; LTCT has the 19 bits that the shift leaves. -/
theorem mantissaInRange_computeValues (m : Image) : MantissaInRange (computeValues m) := by
  have hbyte (b : Byte) := sext32_toInt_bounds (by decide) b
  have hpair (hi lo : Byte) := sext32_toInt_bounds (by decide) (hi ++ lo)
  refine ⟨hbyte _, hbyte _, hpair _ _, hpair _ _, hbyte _, hpair _ _, ?_⟩
  rw [mantissa, computeValues_ltct]
  exact sext32_toInt_bounds (by decide) _

/-! ### The temperatures -/

theorem celsius_eq_div (d : DerivedValues) (n : DerivedName) :
    celsius d n = (mantissa d n : Rat) / 2 ^ fracBits n := by
  rw [celsius, Rat.mkRat_eq_div]
  push_cast
  rfl

/-- A temperature is the mantissa times the weight of its lowest bit. -/
theorem celsius_eq_mul (d : DerivedValues) {n : DerivedName} {c : Rat} (hc : 1 / 2 ^ fracBits n = c) :
    celsius d n = mantissa d n * c := by
  rw [celsius_eq_div, ← hc, mul_one_div]

theorem celsius_eq_mantissa (d : DerivedValues) {n : DerivedName} (hn : fracBits n = 0) :
    celsius d n = mantissa d n := by
  rw [celsius_eq_div, hn, pow_zero, div_one]

theorem le_celsius {d : DerivedValues} {n : DerivedName} {lo : Int} {q : Rat} (h : lo ≤ mantissa d n)
    (hq : q * 2 ^ fracBits n = lo) : q ≤ celsius d n := by
  rw [celsius_eq_div, le_div_iff₀ (by positivity), hq]
  exact_mod_cast h

theorem celsius_le {d : DerivedValues} {n : DerivedName} {hi : Int} {q : Rat} (h : mantissa d n ≤ hi)
    (hq : q * 2 ^ fracBits n = hi) : celsius d n ≤ q := by
  rw [celsius_eq_div, div_le_iff₀ (by positivity), hq]
  exact_mod_cast h

/-! ### CALC -/

theorem exec_calcDv (s : State) : exec .calcDv s = .next (s.setOut (.ofDerived (computeValues s.image))) := rfl

theorem derivedOk_ofDerived (d : DerivedValues) : DerivedOk (.ofDerived d) := ⟨rfl, rfl, rfl, rfl⟩

/-- Settles O28: the mantissas are sign extensions of a byte or of two, and each temperature is `celsius_eq_mul`. -/
theorem calcGivesTheMantissas : Obligations.CalcGivesTheMantissas := by
  refine ⟨by decide, fun s => ⟨_, exec_calcDv s, ?_⟩, fun sel => rejectsWord_of_sel_ne_zero (by decide)⟩
  exact ⟨sext32_byte_toInt _, sext32_byte_toInt _, sext32_append_toInt _ _, sext32_append_toInt _ _,
    sext32_byte_toInt _, sext32_append_toInt _ _, rfl,
    celsius_eq_mantissa _ rfl, celsius_eq_mantissa _ rfl, celsius_eq_mul _ rfl, celsius_eq_mul _ rfl,
    celsius_eq_mul _ rfl, celsius_eq_mul _ rfl, celsius_eq_mul _ rfl,
    derivedOk_ofDerived _, rfl, sameInputs_setOut s _⟩

/-- Settles O29: filling the top bits is sign extension (`sext32_eq_fill`), the shift is a floor (`asr_toInt`), and
the 19 bits that stay give the range. -/
theorem ltctIsTheFloorOfRawOver32 : Obligations.LtctIsTheFloorOfRawOver32 := by
  refine fun s => ⟨_, exec_calcDv s, ?_⟩
  obtain ⟨-, -, -, -, -, -, hlo, hhi⟩ := mantissaInRange_computeValues s.image
  have hfill := sext32_eq_fill (s.image.reg 0xC ++ s.image.reg 0xD ++ s.image.reg 0xE)
  have hsigned := sext32_toInt_eq_signedValue (by decide) (by decide)
    (s.image.reg 0xC ++ s.image.reg 0xD ++ s.image.reg 0xE)
  refine ⟨congrArg (asr · LTC_SHIFT) hfill, ?_, computeValues_ltct s.image, hlo, hhi,
    celsius_eq_mul _ (by norm_num [fracBits]), le_celsius hlo (by norm_num [fracBits]),
    celsius_le hhi (by norm_num [fracBits])⟩
  exact (asr_toInt _ _).trans (congrArg (· / 2 ^ LTC_SHIFT) hsigned)

/-- Settles O31: each mantissa by `mantissa_eq_scalarValue`, its range by `mantissaInRange_computeValues`, and the
printed factors are the weights `2^-FRAC`. -/
theorem temperaturesAreExact : Obligations.TemperaturesAreExact := by
  refine fun s => ⟨_, exec_calcDv s, ?_⟩
  have hvalue {n : DerivedName} := mantissa_eq_scalarValue s.image (n := n)
  obtain ⟨⟨hcjhf, hcjhf'⟩, ⟨hcjlf, hcjlf'⟩, ⟨hlthft, hlthft'⟩, ⟨hltlft, hltlft'⟩, ⟨hcjto, hcjto'⟩,
    ⟨hcjt, hcjt'⟩, -⟩ := mantissaInRange_computeValues s.image
  have hsixteenth {n : DerivedName} (hn : fracBits n = 4) : (1 / 2 ^ fracBits n : Rat) = 625 / 10000 := by
    rw [hn]; norm_num
  refine ⟨⟨hvalue (n := .cjhf) (by decide), hcjhf, hcjhf', celsius_eq_mantissa _ rfl⟩,
    ⟨hvalue (n := .cjlf) (by decide), hcjlf, hcjlf', celsius_eq_mantissa _ rfl⟩,
    ⟨hvalue (n := .lthft) (by decide), hlthft, hlthft', celsius_eq_mul _ (hsixteenth rfl)⟩,
    ⟨hvalue (n := .ltlft) (by decide), hltlft, hltlft', celsius_eq_mul _ (hsixteenth rfl)⟩,
    ⟨hvalue (n := .cjto) (by decide), hcjto, hcjto', celsius_eq_mul _ (hsixteenth rfl), le_celsius hcjto ?_,
      celsius_le hcjto' ?_⟩,
    ⟨hvalue (n := .cjt) (by decide), hcjt, hcjt', celsius_eq_mul _ ?_, le_celsius hcjt ?_, celsius_le hcjt' ?_⟩⟩
  all_goals norm_num [fracBits]

end Sys2Proof.Machine
end

section
/-!
PROOFS. Spec/60_exceptions.md R231: a rejection leaves no trace. A step that ends with an error status replaces the
ports and the outputs and nothing else (`step_error_status`), and the next step looks at neither (`step_congr`).
-/

namespace Sys2Proof.Machine

open Sys2Proof.Safety

/-- R57, R58: with a transaction to take, a step looks at the image and the transactions presented, at no more. -/
theorem step_congr {s s' : State} (himage : s.image = s'.image) (hpending : s.pending = s'.pending)
    (hne : s.pending ≠ []) : step s = step s' := by
  obtain ⟨r, rest, hp⟩ := List.exists_cons_of_ne_nil hne
  have hports : s.setPorts r rest = (s'.setPorts r rest).setOut s.out := State.ext_fields himage rfl rfl rfl
  rw [step_cons hp, step_cons (hpending ▸ hp), hports]
  cases r.rst with
  | true => rfl
  | false =>
    cases decode r.cmd with
    | ok i => exact exec_setOut i s.out _
    | error e => rfl

/-- R231: a command that ends with an error status has changed the outputs alone, and they are those of a rejection. -/
theorem exec_error_status {i : Instr} {s t : State} (h : exec i s = .next t) (hst : t.out.st ≠ 0) :
    ∃ e, t = s.setOut (.rejected e) := by
  rcases exec_cases h with ⟨o, rfl, ho⟩ | ⟨m, rfl⟩ | ⟨e, rfl, -⟩
  · exact absurd ho hst
  · exact absurd rfl hst
  · exact ⟨e, rfl⟩

/-- R231: a step that ends with an error status has taken its transaction onto the ports and rejected it. -/
theorem step_error_status {s t : State} {r : Request} {rest : List Request} (hp : s.pending = r :: rest)
    (h : step s = .next t) (hst : t.out.st ≠ 0) : ∃ e, t = (s.setPorts r rest).setOut (.rejected e) := by
  rcases step_cases h with ⟨hnil, -⟩ | ⟨r', rest', hp', hcases⟩
  · simp [hp] at hnil
  · obtain ⟨rfl, rfl⟩ := List.cons.inj (hp.symm.trans hp')
    rcases hcases with ⟨-, rfl⟩ | ⟨-, i, -, hexec⟩ | ⟨-, e, -, rfl⟩
    · exact absurd rfl hst
    · exact exec_error_status hexec hst
    · exact ⟨.errCmd, rfl⟩

/-- Settles O36: the state after the rejection has the image and the transactions of the state in which the rejected
one was never presented, and the next step looks at nothing else (`step_congr`). -/
theorem rejectionLeavesNoTrace : Obligations.RejectionLeavesNoTrace := by
  intro s t r rest hp h hst
  obtain ⟨e, rfl⟩ := step_error_status hp h hst
  exact ⟨rfl, ⟨rfl, rfl, rfl, rfl⟩, rfl, rfl, fun hne => step_congr rfl rfl hne⟩

end Sys2Proof.Machine
end

section
/-!
PROOFS. Spec/70_reset_and_hazards.md R260: reset and the command beside it. A step whose transaction has `rst`
asserted stores the default image without looking at the command word (`step_of_rst`), and that is the image DFLT
stores (`exec_dflt`).
-/

namespace Sys2Proof.Machine

open Sys2Proof.Safety

/-- R260: the step of a transaction with `rst` asserted looks at no command word, legal or illegal, and at no
operand. -/
theorem step_of_rst {s : State} {r : Request} {rest : List Request} (hp : s.pending = r :: rest) (hr : r.rst = true) :
    step s = .next (((s.setPorts r rest).setImage factoryDefault).setOut .plain) := by
  rw [step_cons hp, hr]
  rfl

theorem exec_dflt (s : State) : exec .dflt s = .next ((s.setImage factoryDefault).setOut .plain) := rfl

/-- Settles O10: the reset step (`step_of_rst`) and DFLT (`exec_dflt`) both store the factory default, whose bytes
are the default pattern. -/
theorem resetLoadsTheDefaults : Obligations.ResetLoadsTheDefaults := by
  intro s r rest hp hr
  exact ⟨_, step_of_rst hp hr, factoryDefault_toList, plainOk_plain, rfl, rfl, _, exec_dflt s, rfl⟩

end Sys2Proof.Machine
end

section
/-!
PROOFS. Spec/30_encoding.md sections 2, 3 and 8: the decoder, the encoder, the match/mask table and the assembler
describe one encoding. A command's word decodes to the command (`decode_encode`), which with `encode_of_decode` makes
the two functions inverse. A row of the table that selects a word fixes its `op` and bounds its `sel`
(`row_selects`), and every such word decodes (`decode_of_row`).
-/

namespace Sys2Proof

open Sys2Proof.Machine Sys2Proof.Safety

/-! ### Decoding and encoding -/

theorem decode_encode (i : Instr) : decode (encode i) = .ok i := by
  rw [decode, encode, op_append, sel_append]
  cases i with
  | rdb a | wrb a => exact decodeA_ok.2 ⟨a, rfl, rfl⟩
  | rdf f | wrf f => exact decodeF_ok.2 ⟨f, rfl, rfl⟩
  | rds x | wrs x => exact decodeS_ok.2 ⟨x, rfl, rfl⟩
  | _ => exact decodeN_ok.2 ⟨rfl, rfl⟩

/-- Settles O2: a word that decodes is the encoding of its command (`encode_of_decode`), and an encoding decodes to
its command (`decode_encode`). -/
theorem decodeInvertsEncode : Obligations.DecodeInvertsEncode := fun _ i =>
  ⟨encode_of_decode, fun h => h ▸ decode_encode i⟩

/-- Settles O1: the printed words, evaluated. -/
theorem printedWordsDecode : Obligations.PrintedWordsDecode := by
  unfold Obligations.PrintedWordsDecode
  decide

/-! ### The match/mask table -/

/-- Every mask of the table keeps the whole of `op`. -/
theorem row_mask_op : ∀ r ∈ commandTable, r.mask.op = 0xFF := by decide

/-- A row that selects a word has the word's `op`, and the word's `sel` is in the row's range. -/
theorem row_selects {r : CommandRow} {w : Command} (hr : r ∈ commandTable) (h : r.selects w = true) :
    w.op = r.pattern.op ∧ w.sel.toNat ≤ r.maxSel := by
  obtain ⟨hmask, hsel⟩ : w &&& r.mask = r.pattern ∧ (w.setWidth 8).toNat ≤ r.maxSel := by
    simpa [CommandRow.selects] using h
  have hop : (w &&& r.mask).op = w.op &&& r.mask.op := BitVec.extractLsb'_and
  refine ⟨?_, ?_⟩
  · rw [← hmask, hop, row_mask_op r hr]
    exact BitVec.and_allOnes.symm
  · rwa [BitVec.toNat_setWidth, ← sel_toNat] at hsel

/-- Every word with the `op` of a row and a `sel` in the row's range decodes. -/
theorem decode_of_row : ∀ r ∈ commandTable, ∀ sel : BitVec 8, sel.toNat ≤ r.maxSel →
    (decode (r.pattern.op ++ sel)).isOk = true := by
  decide

/-- A word that no command has is selected by no row. -/
theorem no_row_selects {w : Command} {e : IllegalWord} (he : decode w = .error e) :
    commandTable.filter (·.selects w) = [] := by
  rw [List.filter_eq_nil_iff]
  intro r hr hsel
  obtain ⟨hop, hmax⟩ := row_selects hr hsel
  have hok := decode_of_row r hr w.sel hmax
  rw [← hop, append_op_sel, he] at hok
  cases hok

/-- The word of a command is selected by the row of its mnemonic alone. -/
theorem rows_of_encode (i : Instr) :
    (commandTable.filter (·.selects (encode i))).map (·.mnemonic) = [mnemonic i] := by
  cases i with
  | rdb a | wrb a => revert a; decide
  | rdf f | wrf f => cases f <;> decide
  | rds x | wrs x => cases x <;> decide
  | _ => decide

/-- Settles O3: a word that decodes is its command's, whose row is `rows_of_encode`; a word that does not is selected
by no row. -/
theorem decodeFollowsTheMatchTable : Obligations.DecodeFollowsTheMatchTable := by
  intro w
  cases hd : decode w with
  | ok i =>
    rw [← encode_of_decode hd]
    exact rows_of_encode i
  | error e => rw [no_row_selects hd, List.map_nil]

/-! ### The assembler -/

/-- Settles O6: the line of each command, with each of its selectors, evaluated. -/
theorem assemblerWritesTheEncoding : Obligations.AssemblerWritesTheEncoding := by
  intro i
  cases i with
  | rdb a | wrb a => revert a; decide
  | rdf f | wrf f => cases f <;> decide
  | rds x | wrs x => cases x <;> decide
  | _ => decide

end Sys2Proof
end

section
/-!
PROOFS. What a command can do, said once more and sharper than `exec_cases`: a write either stores its own update or
is rejected with its own status (`exec_wrb_cases` to `exec_load_cases`), and a command's outputs are of the one kind
its row gives it (`exec_out_cases`). From these, which status a command can end with (spec/60_exceptions.md R235) and
the invariant of the outputs and the buffers (spec/30_encoding.md R100, R115 to R119).
-/

namespace Sys2Proof.Machine

open Sys2Proof.Safety

/-! ### The next state of a write -/

/-- A command with a check on its operands stores where they pass and is rejected where they do not. -/
theorem checked_cases {i : Instr} {s t : State} {m : Image} {e : Status} {fits : Prop}
    (hfits : fits → exec i s = s.store m) (hnot : ¬ fits → exec i s = s.raise e) (h : exec i s = .next t) :
    (fits ∧ t = (s.setImage m).setOut .plain) ∨ (¬ fits ∧ t = s.setOut (.rejected e)) := by
  by_cases hf : fits
  · exact .inl ⟨hf, store_next ((hfits hf).symm.trans h)⟩
  · exact .inr ⟨hf, raise_next ((hnot hf).symm.trans h)⟩

section
variable {s t : State}

theorem exec_wrb_cases {a : RegAddr} (h : exec (.wrb a) s = .next t) :
    (fitsUnsigned 8 s.port.wdata = true ∧
      t = (s.setImage (s.image.setReg a (slice s.port.wdata 0 8))).setOut .plain) ∨
    (¬ fitsUnsigned 8 s.port.wdata = true ∧ t = s.setOut (.rejected .errRange)) :=
  checked_cases (exec_wrb_fits a) (exec_wrb_not_fits a) h

theorem exec_wrf_cases {f : BitField} (h : exec (.wrf f) s = .next t) :
    (fitsUnsigned (fieldLayout f).width s.port.wdata = true ∧
      t = (s.setImage (writeField s.image f (slice s.port.wdata 0 8))).setOut .plain) ∨
    (¬ fitsUnsigned (fieldLayout f).width s.port.wdata = true ∧ t = s.setOut (.rejected .errRange)) :=
  checked_cases (exec_wrf_fits f) (exec_wrf_not_fits f) h

theorem exec_wrs_cases {x : Scalar} (h : exec (.wrs x) s = .next t) :
    (fitsSigned (scalarWidth x) s.port.wdata = true ∧
      t = (s.setImage (writeScalar s.image x (slice s.port.wdata 0 (scalarWidth x)))).setOut .plain) ∨
    (¬ fitsSigned (scalarWidth x) s.port.wdata = true ∧ t = s.setOut (.rejected .errRange)) :=
  checked_cases (exec_wrs_fits x) (exec_wrs_not_fits x) h

theorem exec_load_cases (h : exec .load s = .next t) :
    (∃ m, decodeBuffer s.port.bin = some m ∧ t = (s.setImage m).setOut .plain) ∨
    (decodeBuffer s.port.bin = none ∧ t = s.setOut (.rejected .errLen)) := by
  cases hb : decodeBuffer s.port.bin with
  | some m => exact .inl ⟨m, rfl, store_next ((exec_load_some hb).symm.trans h)⟩
  | none => exact .inr ⟨rfl, raise_next ((exec_load_none hb).symm.trans h)⟩

/-! ### The outputs of a command -/

theorem checked_out {m : Image} {e : Status} {fits : Prop}
    (h : (fits ∧ t = (s.setImage m).setOut .plain) ∨ (¬ fits ∧ t = s.setOut (.rejected e))) :
    ∃ e' ∈ [.ok, e], t.out = .rejected e' := by
  rcases h with ⟨-, rfl⟩ | ⟨-, rfl⟩
  · exact ⟨.ok, .head _, rfl⟩
  · exact ⟨e, .tail _ (.head _), rfl⟩

/-- A write answers the outputs of a status its row allows, with no result (`rejected .ok` being `plain`); any other
command answers a word, one of the two frames, or the derived values. -/
theorem exec_out_cases {i : Instr} (h : exec i s = .next t) :
    (∃ e ∈ statuses i, t.out = .rejected e) ∨
    (.ok ∈ statuses i ∧ ((∃ v, t.out = .ofWord v) ∨ t.out = .ofFrame (encodeBuffer s.image) ∨
      t.out = .ofFrame readRequest ∨ t.out = .ofDerived (computeValues s.image))) := by
  cases i with
  | dflt => exact .inl ⟨.ok, .head _, congrArg State.out (store_next h)⟩
  | wrb a => exact .inl (checked_out (exec_wrb_cases h))
  | wrf f => exact .inl (checked_out (exec_wrf_cases h))
  | wrs x => exact .inl (checked_out (exec_wrs_cases h))
  | load =>
    rcases exec_load_cases h with ⟨m, -, rfl⟩ | ⟨-, rfl⟩
    · exact .inl ⟨.ok, .head _, rfl⟩
    · exact .inl ⟨.errLen, .tail _ (.head _), rfl⟩
  | rdb | rdf | rds | dtyp | davg => exact .inr ⟨.head _, .inl ⟨_, congrArg State.out (answer_next h)⟩⟩
  | pack => exact .inr ⟨.head _, .inr (.inl (congrArg State.out (answer_next h)))⟩
  | rdrq => exact .inr ⟨.head _, .inr (.inr (.inl (congrArg State.out (answer_next h))))⟩
  | calcDv => exact .inr ⟨.head _, .inr (.inr (.inr (congrArg State.out (answer_next h))))⟩

end

/-- Settles O35: the outputs of `exec_out_cases` have an allowed status; those with a result have `ST_OK`. -/
theorem statusesFollowTheMatrix : Obligations.StatusesFollowTheMatrix := by
  intro i s t h
  rcases exec_out_cases h with ⟨e, he, ho⟩ | ⟨hok, ⟨v, ho⟩ | ho | ho | ho⟩ <;> rw [ho]
  · exact List.mem_map_of_mem he
  all_goals exact List.mem_map_of_mem hok

/-! ### The invariant -/

theorem mantissaInRange_zero : MantissaInRange .zero := by
  unfold MantissaInRange
  decide

theorem outputsWellFormed_rejected (e : Status) : OutputsWellFormed (.rejected e) :=
  ⟨rfl, .inl rfl, fun _ => ⟨rfl, rfl, rfl, rfl⟩, fun h => absurd rfl h, fun h => absurd rfl h, mantissaInRange_zero⟩

theorem outputsWellFormed_plain : OutputsWellFormed .plain := outputsWellFormed_rejected .ok

theorem outputsWellFormed_ofWord (v : Word) : OutputsWellFormed (.ofWord v) :=
  ⟨rfl, .inl rfl, fun h => absurd rfl h, fun _ => ⟨rfl, rfl⟩, fun h => absurd rfl h, mantissaInRange_zero⟩

theorem outputsWellFormed_ofDerived {d : DerivedValues} (h : MantissaInRange d) : OutputsWellFormed (.ofDerived d) :=
  ⟨rfl, .inl rfl, fun h => absurd rfl h, fun h => absurd rfl h, fun h => absurd rfl h, h⟩

/-- A frame is well formed where it is a write frame or the read request, and its length fits `bout_len`. -/
theorem outputsWellFormed_ofFrame {bytes : List Byte} (hlength : bytes.length < 256)
    (hframe : (bytes.length = 13 ∧ bytes.head? = some 0x80) ∨ bytes = List.replicate 17 0x00) :
    OutputsWellFormed (.ofFrame bytes) :=
  ⟨(BitVec.toNat_ofNat ..).trans (Nat.mod_eq_of_lt hlength), .inr hframe, fun h => absurd rfl h,
    fun h => absurd rfl h, fun _ => rfl, mantissaInRange_zero⟩

theorem outputsWellFormed_pack (m : Image) : OutputsWellFormed (.ofFrame (encodeBuffer m)) :=
  outputsWellFormed_ofFrame (by rw [encodeBuffer_length]; decide) (.inl ⟨encodeBuffer_length m, rfl⟩)

theorem outputsWellFormed_rdrq : OutputsWellFormed (.ofFrame readRequest) :=
  outputsWellFormed_ofFrame (by rw [readRequest_length]; decide) (.inr readRequest_eq)

theorem exec_outputsWellFormed {i : Instr} {s t : State} (h : exec i s = .next t) : OutputsWellFormed t.out := by
  rcases exec_out_cases h with ⟨e, -, ho⟩ | ⟨-, ⟨v, ho⟩ | ho | ho | ho⟩ <;> rw [ho]
  · exact outputsWellFormed_rejected e
  · exact outputsWellFormed_ofWord v
  · exact outputsWellFormed_pack s.image
  · exact outputsWellFormed_rdrq
  · exact outputsWellFormed_ofDerived (mantissaInRange_computeValues s.image)

/-- Settles O45: the outputs of reset are `plain`, its input buffer is empty and nothing is presented. -/
theorem resetMeetsTheInvariant : Obligations.ResetMeetsTheInvariant :=
  ⟨outputsWellFormed_plain, rfl, fun _ hr => absurd hr List.not_mem_nil⟩

/-- A command keeps the ports and what is presented after them. -/
theorem exec_sameInputs {i : Instr} {s t : State} (h : exec i s = .next t) : SameInputs s t := by
  rcases exec_cases h with ⟨o, rfl, -⟩ | ⟨m, rfl⟩ | ⟨e, rfl, -⟩
  · exact sameInputs_setOut s o
  · exact sameInputs_store s m _
  · exact sameInputs_setOut s _

/-- A step that takes a transaction leaves it on the ports, with the others still to come, and well-formed outputs. -/
theorem step_cons_next {s t : State} {r : Request} {rest : List Request} (hp : s.pending = r :: rest)
    (h : step s = .next t) : t.port = r ∧ t.pending = rest ∧ OutputsWellFormed t.out := by
  rcases step_cases h with ⟨hnil, -⟩ | ⟨r', rest', hp', hcases⟩
  · cases hp.symm.trans hnil
  · obtain ⟨rfl, rfl⟩ := List.cons.inj (hp.symm.trans hp')
    rcases hcases with ⟨-, rfl⟩ | ⟨-, i, -, hexec⟩ | ⟨-, e, -, rfl⟩
    · exact ⟨rfl, rfl, outputsWellFormed_plain⟩
    · obtain ⟨hport, hpending⟩ := exec_sameInputs hexec
      exact ⟨hport, hpending, exec_outputsWellFormed hexec⟩
    · exact ⟨rfl, rfl, outputsWellFormed_rejected _⟩

/-- Settles O46: the buffers on the ports after a step and still to come were all to come before it, and the outputs
are well formed by `step_cons_next`. -/
theorem everyStepKeepsTheInvariant : Obligations.EveryStepKeepsTheInvariant := by
  rintro s t ⟨hout, hport, hpending⟩ h
  cases hp : s.pending with
  | nil =>
    obtain ⟨-, rfl⟩ | ⟨r, rest, hp', -⟩ := step_cases h
    · exact ⟨hout, hport, hpending⟩
    · cases hp.symm.trans hp'
  | cons r rest =>
    obtain ⟨rfl, rfl, hout'⟩ := step_cons_next hp h
    rw [hp, List.forall_mem_cons] at hpending
    exact ⟨hout', hpending⟩

end Sys2Proof.Machine
end

section
/-!
PROOFS. Spec/20_memory.md section 5 and spec/70_reset_and_hazards.md sections 2 and 4: steps in sequence. Every step
takes one transaction and answers (`step_next`), and what the host presents later changes nothing in it
(`step_append`), so runs complete and compose.
-/

namespace Sys2Proof.Machine

/-! ### One step -/

theorem step_of_pending_nil {s : State} (hp : s.pending = []) : step s = .next s := by
  rw [step, accept_nil hp]
  rfl

/-- Settles O9: with nothing to accept the step idles. -/
theorem nothingPresentedNothingChanges : Obligations.NothingPresentedNothingChanges := fun _ => step_of_pending_nil

/-- Settles O8: the step of a word that decodes, `step_of_decode_ok`. -/
theorem stepRunsTheDecodedCommand : Obligations.StepRunsTheDecodedCommand := fun _ _ _ _ => step_of_decode_ok

/-- Settles O40: with a transaction to take, a step looks at the image and the transactions alone (`step_congr`). -/
theorem noHiddenState : Obligations.NoHiddenState := fun _ _ => step_congr

/-- What the host presents after the next transaction is no part of the step, and still to come after it. -/
theorem step_append {s t : State} (qs : List Request) (hne : s.pending ≠ []) (h : step s = .next t) :
    step { s with pending := s.pending ++ qs } = .next { t with pending := t.pending ++ qs } := by
  rcases step_cases h with ⟨hnil, -⟩ | ⟨r, rest, hp, ⟨hr, rfl⟩ | ⟨hr, i, hd, hexec⟩ | ⟨hr, e, hd, rfl⟩⟩
  · exact absurd hnil hne
  all_goals
    have hp' : { s with pending := s.pending ++ qs }.pending = r :: (rest ++ qs) := by simp [hp]
  · exact step_of_rst hp' hr
  · rw [step_of_decode_ok hp' hr hd, (exec_sameInputs hexec).2]
    exact exec_pending i (rest ++ qs) hexec
  · exact step_of_decode_error hp' hr hd

/-! ### Runs -/

/-- A run of as many steps as there are transactions presented completes and takes them all. -/
theorem run_completes (k : Nat) : ∀ s : State, s.pending.length = k →
    ∃ t : State, core.run k s = .next t ∧ t.pending = [] := by
  induction k with
  | zero => exact fun s hs => ⟨s, rfl, List.length_eq_zero_iff.1 hs⟩
  | succ k ih =>
    intro s hs
    obtain ⟨u, hstep, hpending⟩ := step_next s
    obtain ⟨t, hrun, ht⟩ := ih u (by rw [hpending, List.length_tail, hs, Nat.add_sub_cancel])
    exact ⟨t, (run_succ k hstep).trans hrun, ht⟩

/-- Settles O41: `run_completes`. -/
theorem everyRunCompletes : Obligations.EveryRunCompletes := fun s => run_completes _ s rfl

/-- Settles O42, by induction on the first list: its first step is the same with the second list presented behind it
(`step_append`). -/
theorem sequencesCompose : Obligations.SequencesCompose := by
  intro s rs qs t h
  induction rs generalizing s with
  | nil =>
    cases h
    rw [List.length_nil, Nat.zero_add]
    rfl
  | cons r rs ih =>
    obtain ⟨u, hstep, hpending⟩ := step_next { s with pending := r :: rs }
    have hu : { u with pending := rs } = u := State.ext_fields rfl rfl hpending.symm rfl
    have happend : step { s with pending := r :: rs ++ qs } = .next { u with pending := rs ++ qs } := by
      have := step_append qs (List.cons_ne_nil r rs) hstep
      rwa [hpending] at this
    rw [List.length_cons, run_succ _ hstep, ← hu] at h
    rw [List.length_cons, Nat.succ_add, run_succ _ happend, ih u h]

/-- Settles O43: RDRQ keeps the image whatever it was, LOAD replaces it by the response, and CALC answers the derived
values of what LOAD stored. -/
theorem readSequenceReportsTheResponse : Obligations.ReadSequenceReportsTheResponse := by
  intro s r₁ r₂ r₃ rest hp hr₁ hr₂ hr₃ hrdrq hload hcalc hlength
  have hd₁ : decode r₁.cmd = .ok .rdrq := by rw [hrdrq]; decide
  have hd₂ : decode r₂.cmd = .ok .load := by rw [hload]; decide
  have hd₃ : decode r₃.cmd = .ok .calcDv := by rw [hcalc]; decide
  obtain ⟨m, hm⟩ := decodeBuffer_isSome hlength
  obtain ⟨t₁, h₁, hp₁⟩ : ∃ t₁, step s = .next t₁ ∧ t₁.pending = r₂ :: r₃ :: rest :=
    ⟨_, step_of_decode_ok hp hr₁ hd₁, rfl⟩
  obtain ⟨t₂, h₂, hp₂, himage⟩ : ∃ t₂, step t₁ = .next t₂ ∧ t₂.pending = r₃ :: rest ∧ t₂.image = m :=
    ⟨_, (step_of_decode_ok hp₁ hr₂ hd₂).trans (exec_load_some hm), rfl, rfl⟩
  have h₃ : step t₂ = .next ((t₂.setPorts r₃ rest).setOut (.ofDerived (computeValues m))) :=
    himage ▸ step_of_decode_ok hp₂ hr₃ hd₃
  exact ⟨_, m, (run_succ 2 h₁).trans ((run_succ 1 h₂).trans (run_succ 0 h₃)), (decodeBuffer_toList hm).2, himage, rfl,
    rfl⟩

end Sys2Proof.Machine
end

section
/-!
PROOFS. The command/register table of spec/10_state.md section 1: a command changes only the registers of its
"writes" column, and depends only on those of its "reads" column. Run on two images with the same ports, a write
makes the same local update or is rejected in both (`exec_write_alike`), and any other command answers what the
registers it reads determine (`exec_read_alike`). The same two lemmas give R183 over whole steps: what R[12] to R[15]
hold never reaches the wire.
-/

namespace Sys2Proof.Machine

open Sys2Proof.Safety

/-! ### What a command writes -/

theorem mem_allRegs (a : RegAddr) : a ∈ allRegs := by revert a; decide

/-- Settles O33: a write outside whose registers `a` lies leaves `a` alone, a rejection and a read leave the image
alone, and DFLT and LOAD may write every register. -/
theorem commandsWriteOnlyTheirRegisters : Obligations.CommandsWriteOnlyTheirRegisters := by
  intro i s t h
  refine ⟨exec_sameInputs h, fun a ha => ?_⟩
  cases i with
  | dflt | load => exact absurd (mem_allRegs a) ha
  | wrb b =>
    rcases exec_wrb_cases h with ⟨-, rfl⟩ | ⟨-, rfl⟩
    · exact reg_setReg_ne _ _ (mt List.mem_singleton.2 ha)
    · rfl
  | wrf f =>
    rcases exec_wrf_cases h with ⟨-, rfl⟩ | ⟨-, rfl⟩
    · exact writeField_reg_ne _ f _ (mt List.mem_singleton.2 ha)
    · rfl
  | wrs x =>
    rcases exec_wrs_cases h with ⟨-, rfl⟩ | ⟨-, rfl⟩
    · exact writeScalar_reg_ne _ x _ ha
    · rfl
  | _ => rw [answer_next h, setOut_image]

/-! ### The same write on two images -/

section
variable {regs : List RegAddr} {m m' : Image}

/-- A write keeps two images in agreement where they agreed, and makes them agree in the register it writes. -/
theorem agree_setReg (a : RegAddr) (v : Byte) (h : ∀ b ∈ regs, b ≠ a → m.reg b = m'.reg b) :
    Agree regs (m.setReg a v) (m'.setReg a v) := by
  intro b hb
  rw [reg_setReg, reg_setReg]
  split_ifs with hba
  · rfl
  · exact h b hb hba

theorem agree_writeScalar (x : Scalar) (v : BitVec (scalarWidth x)) (h : Agree regs m m') :
    Agree regs (writeScalar m x v) (writeScalar m' x v) := by
  intro b hb
  by_cases hbx : b ∈ scalarRegs x
  · exact writeScalar_agree m m' x v b hbx
  · rw [writeScalar_reg_ne m x v hbx, writeScalar_reg_ne m' x v hbx, h b hb]

theorem agree_writeField (f : BitField) (v : Byte) (h : Agree regs m m') :
    Agree regs (writeField m f v) (writeField m' f v) := by
  intro b hb
  by_cases hbf : b = (fieldLayout f).reg
  · rw [writeField, writeField, hbf, reg_setReg_self, reg_setReg_self, h _ (hbf ▸ hb)]
  · rw [writeField_reg_ne m f v hbf, writeField_reg_ne m' f v hbf, h b hb]

theorem computeValues_congr (h : Agree (reads .calcDv) m m') : computeValues m = computeValues m' := by
  simp only [Agree, reads, List.forall_mem_cons] at h
  simp only [computeValues, h]

end

/-! ### One command on two images, the ports being the same -/

/-- An update that keeps two images in agreement wherever they agreed, and makes them agree in all registers that the
command may write once they agree in those it may read. -/
def LocalUpdate (i : Instr) (u : Image → Image) : Prop :=
  ∀ m m', (∀ regs, Agree regs m m' → Agree regs (u m) (u m')) ∧
    (Agree (reads i) m m' → Agree (writes i) (u m) (u m'))

theorem localUpdate_const {i : Instr} (m : Image) : LocalUpdate i fun _ => m :=
  fun _ _ => ⟨fun _ _ _ _ => rfl, fun _ _ _ => rfl⟩

theorem localUpdate_wrb (a : RegAddr) (v : Byte) : LocalUpdate (.wrb a) (·.setReg a v) :=
  fun _ _ => ⟨fun _ h => agree_setReg a v fun b hb _ => h b hb,
    fun _ => agree_setReg a v fun _ hb hne => absurd (List.mem_singleton.1 hb) hne⟩

theorem localUpdate_wrf (f : BitField) (v : Byte) : LocalUpdate (.wrf f) (writeField · f v) :=
  fun _ _ => ⟨fun _ => agree_writeField f v, agree_writeField f v⟩

theorem localUpdate_wrs (x : Scalar) (v : BitVec (scalarWidth x)) : LocalUpdate (.wrs x) (writeScalar · x v) :=
  fun m m' => ⟨fun _ => agree_writeScalar x v, fun _ => writeScalar_agree m m' x v⟩

theorem scalarRegs_ne_nil (x : Scalar) : scalarRegs x ≠ [] := by cases x <;> exact List.cons_ne_nil _ _

section
variable {i : Instr} {s s' t t' : State}

/-- Both runs make the same update, or both are rejected with the same status. -/
def EndAlike (i : Instr) (s s' t t' : State) : Prop :=
  (∃ u, LocalUpdate i u ∧ t = (s.setImage (u s.image)).setOut .plain ∧
    t' = (s'.setImage (u s'.image)).setOut .plain) ∨
  ∃ e : Status, e.code ≠ 0 ∧ t = s.setOut (.rejected e) ∧ t' = s'.setOut (.rejected e)

theorem endAlike_of_checked {u : Image → Image} {fits : Prop} (hu : LocalUpdate i u)
    (h : (fits ∧ t = (s.setImage (u s.image)).setOut .plain) ∨ (¬ fits ∧ t = s.setOut (.rejected .errRange)))
    (h' : (fits ∧ t' = (s'.setImage (u s'.image)).setOut .plain) ∨ (¬ fits ∧ t' = s'.setOut (.rejected .errRange))) :
    EndAlike i s s' t t' := by
  rcases h with ⟨hf, ht⟩ | ⟨hf, ht⟩
  · exact .inl ⟨u, hu, ht, (h'.resolve_right fun hr => hr.1 hf).2⟩
  · exact .inr ⟨.errRange, by decide, ht, (h'.resolve_left fun hr => hf hr.1).2⟩

/-- A command that may write ends on both images alike: its operands, which are the same, decide how. -/
theorem exec_write_alike (hw : writes i ≠ []) (hport : s.port = s'.port) (h : exec i s = .next t)
    (h' : exec i s' = .next t') : EndAlike i s s' t t' := by
  cases i with
  | dflt => exact .inl ⟨_, localUpdate_const factoryDefault, store_next h, store_next h'⟩
  | wrb a =>
    have hcases := exec_wrb_cases h'
    rw [← hport] at hcases
    exact endAlike_of_checked (localUpdate_wrb a _) (exec_wrb_cases h) hcases
  | wrf f =>
    have hcases := exec_wrf_cases h'
    rw [← hport] at hcases
    exact endAlike_of_checked (localUpdate_wrf f _) (exec_wrf_cases h) hcases
  | wrs x =>
    have hcases := exec_wrs_cases h'
    rw [← hport] at hcases
    exact endAlike_of_checked (localUpdate_wrs x _) (exec_wrs_cases h) hcases
  | load =>
    cases hb : decodeBuffer s.port.bin with
    | some m =>
      exact .inl ⟨_, localUpdate_const m, store_next (exec_load_some hb ▸ h),
        store_next (exec_load_some (hport ▸ hb) ▸ h')⟩
    | none =>
      exact .inr ⟨.errLen, by decide, raise_next (exec_load_none hb ▸ h),
        raise_next (exec_load_none (hport ▸ hb) ▸ h')⟩
  | _ => exact absurd rfl hw

/-- A command that writes nothing answers the same on images that agree in the registers it may read, and the same
buffer on images that agree in the writable registers. -/
theorem exec_read_alike (hw : writes i = []) (h : exec i s = .next t) (h' : exec i s' = .next t') :
    ∃ o o', t = s.setOut o ∧ t' = s'.setOut o' ∧ (Agree (reads i) s.image s'.image → o = o') ∧
      (Agree writableRegs s.image s'.image → o.bout = o'.bout ∧ o.boutLen = o'.boutLen) := by
  cases i with
  | dflt | load | wrb | wrf => cases hw
  | wrs x => exact absurd hw (scalarRegs_ne_nil x)
  | rdb a =>
    exact ⟨_, _, answer_next h, answer_next h', fun hr => by rw [hr a (.head _)], fun _ => ⟨rfl, rfl⟩⟩
  | rdf f =>
    exact ⟨_, _, answer_next h, answer_next h', fun hr => by rw [readField, readField, hr _ (.head _)],
      fun _ => ⟨rfl, rfl⟩⟩
  | rds x =>
    exact ⟨_, _, answer_next h, answer_next h', fun hr => by rw [readScalar_congr hr], fun _ => ⟨rfl, rfl⟩⟩
  | dtyp | davg =>
    exact ⟨_, _, answer_next h, answer_next h', fun hr => by rw [hr 0x1 (.head _)], fun _ => ⟨rfl, rfl⟩⟩
  | pack =>
    refine ⟨_, _, answer_next h, answer_next h', fun hr => by rw [encodeBuffer_congr hr], fun hr => ?_⟩
    rw [encodeBuffer_congr hr]
    exact ⟨rfl, rfl⟩
  | rdrq => exact ⟨_, _, answer_next h, answer_next h', fun _ => rfl, fun _ => ⟨rfl, rfl⟩⟩
  | calcDv =>
    exact ⟨_, _, answer_next h, answer_next h', fun hr => by rw [computeValues_congr hr], fun _ => ⟨rfl, rfl⟩⟩

end

/-- Settles O34: the reads by `exec_read_alike`; two writes that end alike show the same outputs, and where they are
carried out the update is local. -/
theorem commandsReadOnlyTheirRegisters : Obligations.CommandsReadOnlyTheirRegisters := by
  intro i s s' t t' hport hreads h h'
  by_cases hw : writes i = []
  · obtain ⟨o, o', rfl, rfl, hout, -⟩ := exec_read_alike hw h h'
    exact ⟨hout hreads, fun _ a ha => by simp [hw] at ha⟩
  · rcases exec_write_alike hw hport h h' with ⟨u, hu, rfl, rfl⟩ | ⟨e, he, rfl, rfl⟩
    · exact ⟨rfl, fun _ => (hu s.image s'.image).2 hreads⟩
    · exact ⟨rfl, fun hst => absurd hst he⟩

/-! ### The wire -/

theorem exec_wireEqual {i : Instr} {s s' t t' : State} (hwire : WireEqual s s') (h : exec i s = .next t)
    (h' : exec i s' = .next t') : WireEqual t t' := by
  obtain ⟨hagree, hport, hpending, -⟩ := hwire
  by_cases hw : writes i = []
  · obtain ⟨o, o', rfl, rfl, -, hbout⟩ := exec_read_alike hw h h'
    exact ⟨hagree, hport, hpending, hbout hagree⟩
  · rcases exec_write_alike hw hport h h' with ⟨u, hu, rfl, rfl⟩ | ⟨e, -, rfl, rfl⟩
    · exact ⟨(hu s.image s'.image).1 _ hagree, hport, hpending, rfl, rfl⟩
    · exact ⟨hagree, hport, hpending, rfl, rfl⟩

/-- Settles O44: the two machines take the same transaction, so both idle, or both reset, or both reject the word, or
both carry out the same command (`exec_wireEqual`). -/
theorem readOnlyRegistersNeverReachTheWire : Obligations.ReadOnlyRegistersNeverReachTheWire := by
  intro s s' t t' hwire h h'
  obtain ⟨hagree, hport, hpending, hout⟩ := hwire
  rcases step_cases h with ⟨hnil, rfl⟩ | ⟨r, rest, hp, ⟨hr, rfl⟩ | ⟨hr, i, hd, hexec⟩ | ⟨hr, e, hd, rfl⟩⟩
  · cases (step_of_pending_nil (hpending ▸ hnil)).symm.trans h'
    exact ⟨hagree, hport, hpending, hout⟩
  · cases (step_of_rst (hpending ▸ hp) hr).symm.trans h'
    exact ⟨fun _ _ => rfl, rfl, rfl, rfl, rfl⟩
  · have hports : WireEqual (s.setPorts r rest) (s'.setPorts r rest) := ⟨hagree, rfl, rfl, hout⟩
    exact exec_wireEqual hports hexec ((step_of_decode_ok (hpending ▸ hp) hr hd).symm.trans h')
  · cases (step_of_decode_error (hpending ▸ hp) hr hd).symm.trans h'
    exact ⟨hagree, rfl, rfl, rfl, rfl⟩

end Sys2Proof.Machine
end

section
/-!
PROOFS. Spec/40_register_image_ops.md section 3 and spec/10_state.md section 2: the bitfields do not overlap and leave
out the reserved bits. Both are facts about which bits of which register a field covers (`FieldCovers`): no bit is
covered twice (`fieldCovers_unique`), a write changes the covered bits alone (`writeField_reg_bit`), and a read sees
them alone (`readField_congr`).
-/

namespace Sys2Proof.Machine

/-- Bit `k` of `R[a]` belongs to the bitfield (R106). -/
abbrev FieldCovers (f : BitField) (a : RegAddr) (k : Nat) : Prop :=
  a = (fieldLayout f).reg ∧ (fieldLayout f).lsb ≤ k ∧ k < (fieldLayout f).lsb + (fieldLayout f).width

/-! ### Which bits the fields cover -/

theorem fieldLayout_fits (f : BitField) : (fieldLayout f).lsb + (fieldLayout f).width ≤ 8 := by cases f <;> decide

/-- Two different fields lie in different registers or one below the other. -/
theorem fieldLayout_disjoint (f g : BitField) : f = g ∨ (fieldLayout f).reg ≠ (fieldLayout g).reg ∨
    (fieldLayout f).lsb + (fieldLayout f).width ≤ (fieldLayout g).lsb ∨
    (fieldLayout g).lsb + (fieldLayout g).width ≤ (fieldLayout f).lsb := by
  cases f <;> cases g <;> decide

theorem fieldCovers_unique {f g : BitField} {a : RegAddr} {k : Nat} (hf : FieldCovers f a k)
    (hg : FieldCovers g a k) : f = g := by
  obtain ⟨hreg, hlo, hhi⟩ := hf
  obtain ⟨hreg', hlo', hhi'⟩ := hg
  rcases fieldLayout_disjoint f g with h | h | h
  · exact h
  · exact absurd (hreg.symm.trans hreg') h
  · omega

/-- R32: no field covers a reserved bit. -/
theorem not_fieldCovers_reserved (f : BitField) :
    ¬ FieldCovers f 0x1 7 ∧ ¬ FieldCovers f 0x2 7 ∧ ¬ FieldCovers f 0x2 6 := by
  cases f <;> decide

/-! ### Reads and writes, bit by bit -/

/-- Two images are the same when they have the same bits. -/
theorem Image.ext_bit {m m' : Image} (h : ∀ a k, k < 8 → (m.reg a).getLsbD k = (m'.reg a).getLsbD k) : m = m' :=
  Image.ext_reg fun a => BitVec.eq_of_getLsbD_eq (h a)

/-- A write gives the covered bits the bits of the value, and keeps every other bit of the image. -/
theorem writeField_reg_bit (m : Image) (f : BitField) (v : Byte) (a : RegAddr) {k : Nat} (hk : k < 8) :
    ((writeField m f v).reg a).getLsbD k =
      if FieldCovers f a k then v.getLsbD (k - (fieldLayout f).lsb) else (m.reg a).getLsbD k := by
  by_cases ha : a = (fieldLayout f).reg
  · subst ha
    rw [writeField_bit m f v hk]
    simp only [FieldCovers, true_and]
  · rw [writeField_reg_ne m f v ha, if_neg fun h => ha h.1]

/-- A write keeps every bit that its field does not cover. -/
theorem writeField_keeps_bit {m : Image} {f : BitField} (v : Byte) {a : RegAddr} {k : Nat} (hk : k < 8)
    (h : ¬ FieldCovers f a k) : ((writeField m f v).reg a).getLsbD k = (m.reg a).getLsbD k := by
  rw [writeField_reg_bit m f v a hk, if_neg h]

/-- A field's value is the same in two images that agree on the bits it covers. -/
theorem readField_congr {m m' : Image} {f : BitField}
    (h : ∀ k, FieldCovers f (fieldLayout f).reg k →
      (m.reg (fieldLayout f).reg).getLsbD k = (m'.reg (fieldLayout f).reg).getLsbD k) :
    readField m f = readField m' f := by
  apply BitVec.eq_of_getLsbD_eq
  intro k hk
  rw [readField_bit, readField_bit, h _ ⟨rfl, Nat.le_add_right _ _, Nat.add_lt_add_left hk _⟩]

theorem readField_writeField_self (m : Image) (f : BitField) (v : Byte) :
    readField (writeField m f v) f = slice v 0 (fieldLayout f).width := by
  apply BitVec.eq_of_getLsbD_eq
  intro k hk
  have hfits := fieldLayout_fits f
  rw [readField_bit, writeField_bit m f v (by omega), if_pos (by omega), slice_low_bit v hk, decide_eq_true hk,
    Bool.true_and, Nat.add_sub_cancel_left]

theorem readField_writeField_ne (m : Image) {f g : BitField} (v : Byte) (hne : g ≠ f) :
    readField (writeField m f v) g = readField m g := by
  have hfits := fieldLayout_fits g
  apply readField_congr
  intro k hk
  have hhi := hk.2.2
  exact writeField_keeps_bit v (by omega) fun hf => hne (fieldCovers_unique hk hf)

/-! ### What the commands keep, and what they read back -/

/-- Settles O38: a bit is covered by one of the two fields at most, so the order of the writes does not matter to
it. -/
theorem fieldWritesCommute : Obligations.FieldWritesCommute := by
  intro m f g v w hne
  apply Image.ext_bit
  intro a k hk
  simp only [writeField_reg_bit _ _ _ _ hk]
  by_cases hf : FieldCovers f a k
  · have hg : ¬ FieldCovers g a k := fun hg => hne (fieldCovers_unique hf hg)
    rw [if_neg hg, if_pos hf, if_pos hf]
  · rw [if_neg hf, if_neg hf]

/-- A `wdata` that fits a field is the zero extension of its low bits. -/
theorem zext32_low_bits {w : Nat} {v : Word} (hw : w ≤ 8) (hv : v.toNat < 2 ^ w) :
    zext32 (slice (slice v 0 8) 0 w) = v := by
  have hbyte : v.toNat < 2 ^ 8 := hv.trans_le (Nat.pow_le_pow_right (by decide) hw)
  apply BitVec.eq_of_toNat_eq
  rw [zext32_toNat (hw.trans (by decide)), slice_low_toNat, slice_low_toNat, Nat.mod_eq_of_lt hbyte,
    Nat.mod_eq_of_lt hv]

/-- Settles O37: a WRF that ended with `ST_OK` stored the low bits of `wdata`, which are all of it; no other field
covers the bits it wrote. -/
theorem writeThenReadField : Obligations.WriteThenReadField := by
  intro s t f h hst
  rcases exec_wrf_cases h with ⟨hfits, rfl⟩ | ⟨-, rfl⟩
  · refine ⟨⟨_, rfl, ?_⟩, fun g hg => readField_writeField_ne _ _ hg⟩
    have hread := readField_writeField_self s.image f (slice s.port.wdata 0 8)
    exact (congrArg zext32 hread).trans
      (zext32_low_bits ((fieldWidth_le f).trans (by decide)) (fitsUnsigned_iff.1 hfits))
  · have herr : Status.errRange.code ≠ 0 := by decide
    exact absurd hst herr

theorem getLsbD_of_setWidth_eq {v w : Byte} {n k : Nat} (h : v.setWidth n = w.setWidth n) (hk : k < n) :
    v.getLsbD k = w.getLsbD k := by
  simpa [hk] using congrArg (·.getLsbD k) h

/-- No RDF sees a reserved bit: the bits below bit 7 of `R[1]` and below bit 6 of `R[2]` decide every field. -/
theorem readField_setReserved {m : Image} {v₁ v₂ : Byte} (f : BitField)
    (h₁ : v₁.setWidth 7 = (m.reg 0x1).setWidth 7) (h₂ : v₂.setWidth 6 = (m.reg 0x2).setWidth 6) :
    readField ((m.setReg 0x1 v₁).setReg 0x2 v₂) f = readField m f := by
  obtain ⟨hcr1, hmask7, hmask6⟩ := not_fieldCovers_reserved f
  have hfits := fieldLayout_fits f
  apply readField_congr
  intro k hk
  have hhi := hk.2.2
  rw [reg_setReg, reg_setReg]
  split_ifs with hr hr'
  · rw [hr] at hk ⊢
    have h6 : k ≠ 6 := fun h => hmask6 (h ▸ hk)
    have h7 : k ≠ 7 := fun h => hmask7 (h ▸ hk)
    exact getLsbD_of_setWidth_eq h₂ (by omega)
  · rw [hr'] at hk ⊢
    have h7 : k ≠ 7 := fun h => hcr1 (h ▸ hk)
    exact getLsbD_of_setWidth_eq h₁ (by omega)
  · rfl

/-- Settles O39: no field covers a reserved bit, so no write changes one (`writeField_keeps_bit`) and no read sees one
(`readField_setReserved`). -/
theorem wrfKeepsReservedBits : Obligations.WrfKeepsReservedBits := by
  intro s t f h
  have hkeep (a : RegAddr) (k : Nat) (hk : k < 8) (hf : ¬ FieldCovers f a k) :
      (t.image.reg a)[k] = (s.image.reg a)[k] := by
    rcases exec_wrf_cases h with ⟨-, rfl⟩ | ⟨-, rfl⟩
    · exact writeField_keeps_bit _ hk hf
    · rfl
  obtain ⟨hcr1, hmask7, hmask6⟩ := not_fieldCovers_reserved f
  exact ⟨hkeep _ 7 (by decide) hcr1, hkeep _ 7 (by decide) hmask7, hkeep _ 6 (by decide) hmask6,
    fun _ _ => readField_setReserved f⟩

end Sys2Proof.Machine
end

section
/-!
PROOFS. What LOAD has stored is what is read back (spec/41_marshaller_ops.md section 3), the temperature of LTC is odd
in its raw value (spec/42_scaler_ops.md section 3), and the values after reset (spec/10_state.md section 5).
-/

namespace Sys2Proof.Machine

open Sys2Proof.Safety

/-! ### LOAD, then a read -/

/-- Settles O27: a LOAD that ended with `ST_OK` stored the image of the buffer, whose registers are
`decodeBuffer_reg`. -/
theorem loadThenReadByte : Obligations.LoadThenReadByte := by
  intro s t u a h hst hread
  rcases exec_load_cases h with ⟨m, hm, rfl⟩ | ⟨-, rfl⟩
  · exact ⟨m.reg a, decodeBuffer_reg hm a, congrArg (·.out.rdata) (answer_next hread)⟩
  · have herr : Status.errLen.code ≠ 0 := by decide
    exact absurd hst herr

/-- Settles O25: the frame has 13 bytes, so with four more it is a read response; register `a` of the new image is the
byte at position `a + 1` of it. -/
theorem packThenLoadRoundTrips : Obligations.PackThenLoadRoundTrips := by
  intro s t u b₀ b₁ b₂ b₃ h hbin
  have hframe : t.out.bout = encodeBuffer s.image := congrArg (·.out.bout) (answer_next h)
  rw [hframe] at hbin
  have hlength : u.port.bin.length = 17 := by
    rw [hbin, List.length_append, encodeBuffer_length]
    rfl
  obtain ⟨m, hm⟩ := decodeBuffer_isSome hlength
  have hreg := decodeBuffer_reg hm
  rw [hbin, encodeBuffer_eq] at hreg
  have hbyte (a : RegAddr) {b : Byte} (hb : _ = some b) : m.reg a = b := Option.some.inj ((hreg a).symm.trans hb)
  refine ⟨_, exec_load_some hm, rfl, ?_, hbyte 0xC rfl, hbyte 0xD rfl, hbyte 0xE rfl, hbyte 0xF rfl⟩
  simp only [Agree, writableRegs, List.forall_mem_cons, List.not_mem_nil, false_imp_iff, implies_true, and_true]
  exact ⟨hbyte 0x0 rfl, hbyte 0x1 rfl, hbyte 0x2 rfl, hbyte 0x3 rfl, hbyte 0x4 rfl, hbyte 0x5 rfl, hbyte 0x6 rfl,
    hbyte 0x7 rfl, hbyte 0x8 rfl, hbyte 0x9 rfl, hbyte 0xA rfl, hbyte 0xB rfl⟩

/-! ### The symmetry of LTCT -/

/-- R207: the mantissa of LTCT is the floor of a thirty-second of the raw value. -/
theorem mantissa_ltct (m : Image) : mantissa (computeValues m) .ltct = scalarValue m .ltc / 32 := by
  have hraw : readScalar m .ltc = m.reg 0xC ++ m.reg 0xD ++ m.reg 0xE := memRead_three m 0xC
  rw [← sext32_readScalar_toInt, hraw]
  exact asr_toInt _ _

/-- Settles O30: the division by 32 is exact, so it takes the negation through. -/
theorem ltctIsSymmetric : Obligations.LtctIsSymmetric := by
  intro m m' hlow hneg
  have hmantissa : mantissa (computeValues m') .ltct = -mantissa (computeValues m) .ltct := by
    rw [mantissa_ltct, mantissa_ltct, hneg]
    exact Int.neg_ediv_of_dvd (Int.dvd_of_emod_eq_zero hlow)
  rw [celsius_eq_div, celsius_eq_div, hmantissa, Int.cast_neg, neg_div]

/-! ### Reset -/

theorem celsius_of_mantissa {d : DerivedValues} {n : DerivedName} {k : Int} {q : Rat} (hk : mantissa d n = k)
    (hq : (k : Rat) / 2 ^ fracBits n = q) : celsius d n = q := by
  rw [celsius_eq_div, hk, hq]

/-- Settles O11: the bytes and the fields by evaluation; each temperature is its mantissa, evaluated, over its power
of two. -/
theorem resetValuesOfEveryField : Obligations.ResetValuesOfEveryField := by
  refine ⟨factoryDefault_toList, by decide, by decide, by decide, by decide, by decide, plainOk_plain, ?_⟩
  simp only [List.forall_mem_cons, List.not_mem_nil, false_imp_iff, implies_true, and_true]
  refine ⟨celsius_of_mantissa (k := 127) (by decide) ?_, celsius_of_mantissa (k := -64) (by decide) ?_,
    celsius_of_mantissa (k := 32767) (by decide) ?_, celsius_of_mantissa (k := -32768) (by decide) ?_,
    celsius_of_mantissa (k := 0) (by decide) ?_, celsius_of_mantissa (k := 0) (by decide) ?_,
    celsius_of_mantissa (k := 0) (by decide) ?_⟩
  all_goals norm_num [fracBits]

end Sys2Proof.Machine
end
